-- ==== Sys2Proof/Word.lean ====
section
/-! DEFINITION. The fixed-width words of BAC-CPU: bytes, register-index bytes, data addresses, jump targets,
the program counter's word and the four-byte instruction word (spec/00_scope.md R8, spec/30_encoding.md R91). -/

namespace Sys2Proof

/-- A byte: 8 bits (R8). -/
abbrev Byte := BitVec 8

/-- A register index as an instruction word carries it: a whole byte, of which only values below N name a
register (R32, R105). -/
abbrev RegIx := BitVec 8

/-- A data address: the 16 bits `b2 ∥ b3` of a `load` or `store` word (R62, R103). -/
abbrev CellAddr := BitVec 16

/-- A jump target: the 24 bits `b1 ∥ b2 ∥ b3` of a JumpTarget word (R99, R104). -/
abbrev Target := BitVec 24

/-- The program counter's word: 32 bits (R40). -/
abbrev PcWord := BitVec 32

/-- An instruction word: four bytes, `b0` at the lowest image address (R91). -/
structure InstrWord where
  /-- the opcode byte (R92) -/
  b0 : Byte
  /-- the first operand byte -/
  b1 : Byte
  /-- the second operand byte -/
  b2 : Byte
  /-- the third operand byte -/
  b3 : Byte
deriving DecidableEq, Repr

end Sys2Proof
end

