-- ==== Sys2Proof/Config.lean ====
section
/-! DEFINITION. The parameters of the machine (spec/00_scope.md R7), held as plain data, the free contents of data
memory at reset (MEM_INIT, R63), and what makes a choice of parameters a legal one. -/

namespace Sys2Proof

/-- REVISION (R2, R3, R7): the rich revision, or the small profile. -/
inductive Revision where
  | rich
  | small
deriving DecidableEq, Repr

/-- The 22 mnemonics of R101, in the order of its table. -/
inductive Mnemonic where
  | noop | halt
  | add | sub | and | or | xor
  | addi | subi | andi | ori | xori
  | store | load
  | cmp
  | jmp | jeq | jne | jlt | jgt | jal
  | ret
deriving DecidableEq, Repr

/-- The six operand shapes (R93). -/
inductive Shape where
  /-- three registers -/
  | rrr
  /-- an immediate and two registers -/
  | irr
  /-- a register and a data address -/
  | ra
  /-- two registers, third byte zero -/
  | rr
  /-- a 24-bit target -/
  | jumpTarget
  /-- the opcode byte four times -/
  | nullary
deriving DecidableEq, Repr

/-- `OP_<mnemonic>`: the opcode byte of each mnemonic, an OPEN parameter (R92, R101; decision D1). -/
structure OpcodeMap where
  noop : Byte
  halt : Byte
  add : Byte
  sub : Byte
  and : Byte
  or : Byte
  xor : Byte
  addi : Byte
  subi : Byte
  andi : Byte
  ori : Byte
  xori : Byte
  store : Byte
  load : Byte
  cmp : Byte
  jmp : Byte
  jeq : Byte
  jne : Byte
  jlt : Byte
  jgt : Byte
  jal : Byte
  ret : Byte
deriving DecidableEq, Repr

/-- `OpOf` of R114: the opcode byte the map gives a mnemonic. -/
def OpcodeMap.opOf (o : OpcodeMap) : Mnemonic → Byte
  | .noop => o.noop
  | .halt => o.halt
  | .add => o.add
  | .sub => o.sub
  | .and => o.and
  | .or => o.or
  | .xor => o.xor
  | .addi => o.addi
  | .subi => o.subi
  | .andi => o.andi
  | .ori => o.ori
  | .xori => o.xori
  | .store => o.store
  | .load => o.load
  | .cmp => o.cmp
  | .jmp => o.jmp
  | .jeq => o.jeq
  | .jne => o.jne
  | .jlt => o.jlt
  | .jgt => o.jgt
  | .jal => o.jal
  | .ret => o.ret

/-- Every mnemonic once, in the order of R101. -/
def Mnemonic.all : List Mnemonic :=
  [.noop, .halt, .add, .sub, .and, .or, .xor, .addi, .subi, .andi, .ori, .xori, .store, .load, .cmp,
   .jmp, .jeq, .jne, .jlt, .jgt, .jal, .ret]

/-- `CODE_EQ`, `CODE_NE`, `CODE_LT`, `CODE_GT`: the register values that stand for the comparison outcomes, OPEN
parameters (R36; decision D6). -/
structure CompareCodes where
  eq : Nat
  ne : Nat
  lt : Nat
  gt : Nat
deriving DecidableEq, Repr

/-- The parameters of R7 that a machine is built with. They are an argument of the model: State carries them, and
no step changes them (log entry 1). -/
structure Config where
  /-- REVISION -/
  revision : Revision
  /-- W, the register width in bits -/
  width : Nat
  /-- R0_HARDWIRED -/
  r0Hardwired : Bool
  /-- CODE_* -/
  codes : CompareCodes
  /-- OP_* -/
  opcodes : OpcodeMap
  /-- RAS_DEPTH -/
  rasDepth : Nat
  /-- IMAGE_MAX_BYTES -/
  imageMaxBytes : Nat
deriving DecidableEq, Repr

namespace Config

/-- N: 16 registers in the rich revision, 8 in the small one (R30). -/
def numRegs (c : Config) : Nat :=
  match c.revision with
  | .rich => 16
  | .small => 8

/-- Which mnemonics the revision has: `jal` and `ret` are in the rich revision only (R3, R101). -/
def has (c : Config) (m : Mnemonic) : Bool :=
  match c.revision, m with
  | .small, .jal => false
  | .small, .ret => false
  | _, _ => true

/-- 2^W: register values lie in [0, 2^W) (R9). -/
abbrev modulus (c : Config) : Nat := 2 ^ c.width

/-- A legal width: W = 8 in the small profile (R3). In the rich revision the source says "wider" than 8; the model
admits every W from 8 on, since spec/95_test_vectors.md runs its programs of the rich revision at W = 8 as well
(log entry 7). -/
abbrev widthOk (c : Config) : Prop :=
  (c.revision = .rich → 8 ≤ c.width) ∧ (c.revision = .small → c.width = 8)

/-- The four codes are pairwise distinct and each below 2^W (R36). -/
abbrev codesOk (c : Config) : Prop :=
  [c.codes.eq, c.codes.ne, c.codes.lt, c.codes.gt].Nodup ∧
    c.codes.eq < c.modulus ∧ c.codes.ne < c.modulus ∧ c.codes.lt < c.modulus ∧ c.codes.gt < c.modulus

/-- A legal choice of parameters: R7, R36 (codes), R45 (RAS_DEPTH ≥ 1), R61 (IMAGE_MAX_BYTES ≤ 2^32 − 4) and R92
(opcode bytes pairwise distinct). -/
abbrev wf (c : Config) : Prop :=
  c.widthOk ∧ c.codesOk ∧ (Mnemonic.all.map c.opcodes.opOf).Nodup ∧ 1 ≤ c.rasDepth ∧ c.imageMaxBytes ≤ 2 ^ 32 - 4

/-- MEM_INIT (R63; decision D11): what data cell `addr` holds at reset, in the run that drew number `draw`. A FREE
VALUE: it has no body, so nothing about it can be proved. A cell holds it reduced to W bits. Log entry 3. -/
opaque memInit (draw addr : Nat) : Nat

end Config

end Sys2Proof
end

