-- ==== Sys2Proof/Machine/Reference.lean ====
section
/-! DEFINITION. The reference configuration of spec/00_scope.md R7 and spec/95_test_vectors.md: the values the spec's
worked encodings and examples use for the OPEN parameters. `State.reset` and `decodeTableWord` take it; every
statement quantifies over all legal configurations instead. -/

namespace Sys2Proof.Machine

/-- The reference opcode assignment of R101 (decision D1). -/
def referenceOpcodes : OpcodeMap where
  noop := 0x00
  halt := 0x01
  add := 0x02
  sub := 0x03
  and := 0x04
  or := 0x05
  xor := 0x06
  addi := 0x07
  subi := 0x08
  andi := 0x09
  ori := 0x0A
  xori := 0x0B
  store := 0x0C
  load := 0x0D
  cmp := 0x0E
  jmp := 0x0F
  jeq := 0x10
  jne := 0x11
  jlt := 0x12
  jgt := 0x13
  jal := 0x14
  ret := 0x15

/-- The reference comparison codes of R172 (decision D6). -/
def referenceCodes : CompareCodes where
  eq := 0
  ne := 1
  lt := 2
  gt := 3

/-- The reference configuration: rich revision, W = 16, r0 not hardwired (R7). The spec names no RAS_DEPTH and no
IMAGE_MAX_BYTES below its bound: 256 and the bound itself are DESIGN CHOICES (log entries 1 and 2). -/
def referenceConfig : Config where
  revision := .rich
  width := 16
  r0Hardwired := false
  codes := referenceCodes
  opcodes := referenceOpcodes
  rasDepth := 256
  imageMaxBytes := 2 ^ 32 - 4

end Sys2Proof.Machine
end

