-- ==== Sys2Proof/Syntax.lean ====
section
/-! DEFINITION. The instructions of BAC-CPU: one constructor per row of spec/opcode_table.json (spec/30_encoding.md
R101), with the decoded fields of R95. -/

namespace Sys2Proof

/-- The 22 instructions (R101). A register field is the index byte of the word; `Instr.wf` says which name a
register. -/
inductive Instr where
  /-- R201 -/
  | noop
  /-- R200 -/
  | halt
  /-- R141 -/
  | add (rs1 rs2 rd : RegIx)
  /-- R142 -/
  | sub (rs1 rs2 rd : RegIx)
  /-- R143 -/
  | and (rs1 rs2 rd : RegIx)
  /-- R144 -/
  | or (rs1 rs2 rd : RegIx)
  /-- R145 -/
  | xor (rs1 rs2 rd : RegIx)
  /-- R146 -/
  | addi (imm : Byte) (rs2 rd : RegIx)
  /-- R147 -/
  | subi (imm : Byte) (rs2 rd : RegIx)
  /-- R148 -/
  | andi (imm : Byte) (rs2 rd : RegIx)
  /-- R149 -/
  | ori (imm : Byte) (rs2 rd : RegIx)
  /-- R150 -/
  | xori (imm : Byte) (rs2 rd : RegIx)
  /-- R160 -/
  | store (r : RegIx) (addr : CellAddr)
  /-- R161 -/
  | load (r : RegIx) (addr : CellAddr)
  /-- R170 -/
  | cmp (rs1 rs2 : RegIx)
  /-- R181 -/
  | jmp (target : Target)
  /-- R182 -/
  | jeq (target : Target)
  /-- R183 -/
  | jne (target : Target)
  /-- R184 -/
  | jlt (target : Target)
  /-- R185 -/
  | jgt (target : Target)
  /-- R186 -/
  | jal (target : Target)
  /-- R187 -/
  | ret
deriving DecidableEq, Repr

end Sys2Proof
end

