-- ==== Sys2Proof/WellFormed.lean ====
section
/-! DEFINITION. When an instruction is well formed under a choice of parameters: every register field names a
register (spec/10_state.md R32, spec/30_encoding.md R94 to R98, R105), and `jal` and `ret` are in the rich revision
only (R101). -/

namespace Sys2Proof

/-- The index byte names a register: it is below N (R32, R105). -/
def Config.isReg (c : Config) (r : RegIx) : Bool := decide (r.toNat < c.numRegs)

/-- The instruction is one that the decoder of this configuration can give (R95, R101, R108). -/
def Instr.wf (c : Config) : Instr → Bool
  | .noop => true
  | .halt => true
  | .add rs1 rs2 rd => c.isReg rs1 && c.isReg rs2 && c.isReg rd
  | .sub rs1 rs2 rd => c.isReg rs1 && c.isReg rs2 && c.isReg rd
  | .and rs1 rs2 rd => c.isReg rs1 && c.isReg rs2 && c.isReg rd
  | .or rs1 rs2 rd => c.isReg rs1 && c.isReg rs2 && c.isReg rd
  | .xor rs1 rs2 rd => c.isReg rs1 && c.isReg rs2 && c.isReg rd
  | .addi _ rs2 rd => c.isReg rs2 && c.isReg rd
  | .subi _ rs2 rd => c.isReg rs2 && c.isReg rd
  | .andi _ rs2 rd => c.isReg rs2 && c.isReg rd
  | .ori _ rs2 rd => c.isReg rs2 && c.isReg rd
  | .xori _ rs2 rd => c.isReg rs2 && c.isReg rd
  | .store r _ => c.isReg r
  | .load r _ => c.isReg r
  | .cmp rs1 rs2 => c.isReg rs1 && c.isReg rs2
  | .jmp _ => true
  | .jeq _ => true
  | .jne _ => true
  | .jlt _ => true
  | .jgt _ => true
  | .jal _ => c.has .jal
  | .ret => c.has .ret

end Sys2Proof
end

