-- ==== Sys2Proof/Decode.lean ====
section
/-! DEFINITION. Decoding and encoding of the four-byte instruction word (spec/30_encoding.md R90 to R111): the shape
table, the field extraction of R95, the two refusals of R107 and R108, the encoder of R130, and the opcode table's
numbering of a word (spec/00_scope.md R8). -/

namespace Sys2Proof

/-- The operand shape of each mnemonic (R93, R101). -/
def Mnemonic.shape : Mnemonic → Shape
  | .noop => .nullary
  | .halt => .nullary
  | .add => .rrr
  | .sub => .rrr
  | .and => .rrr
  | .or => .rrr
  | .xor => .rrr
  | .addi => .irr
  | .subi => .irr
  | .andi => .irr
  | .ori => .irr
  | .xori => .irr
  | .store => .ra
  | .load => .ra
  | .cmp => .rr
  | .jmp => .jumpTarget
  | .jeq => .jumpTarget
  | .jne => .jumpTarget
  | .jlt => .jumpTarget
  | .jgt => .jumpTarget
  | .jal => .jumpTarget
  | .ret => .nullary

/-- The mnemonic of an instruction. -/
def Instr.mnemonic : Instr → Mnemonic
  | .noop => .noop
  | .halt => .halt
  | .add _ _ _ => .add
  | .sub _ _ _ => .sub
  | .and _ _ _ => .and
  | .or _ _ _ => .or
  | .xor _ _ _ => .xor
  | .addi _ _ _ => .addi
  | .subi _ _ _ => .subi
  | .andi _ _ _ => .andi
  | .ori _ _ _ => .ori
  | .xori _ _ _ => .xori
  | .store _ _ => .store
  | .load _ _ => .load
  | .cmp _ _ => .cmp
  | .jmp _ => .jmp
  | .jeq _ => .jeq
  | .jne _ => .jne
  | .jlt _ => .jlt
  | .jgt _ => .jgt
  | .jal _ => .jal
  | .ret => .ret

/-- `word = b0<<24 | b1<<16 | b2<<8 | b3` (R8, R91). -/
def InstrWord.toBits (w : InstrWord) : BitVec 32 :=
  w.b0.setWidth 32 <<< 24 ||| w.b1.setWidth 32 <<< 16 ||| w.b2.setWidth 32 <<< 8 ||| w.b3.setWidth 32

/-- The four bytes of a 32-bit word: `b0 = word[31:24]` … `b3 = word[7:0]` (R8). -/
def InstrWord.ofBits (v : BitVec 32) : InstrWord where
  b0 := v.extractLsb' 24 8
  b1 := v.extractLsb' 16 8
  b2 := v.extractLsb' 8 8
  b3 := v.extractLsb' 0 8

/-- The word's bytes in image order, `b0` first (R65). -/
def InstrWord.bytes (w : InstrWord) : List Byte := [w.b0, w.b1, w.b2, w.b3]

/-- `addr = (b2 << 8) | b3`, high byte first (R97, R103). -/
def InstrWord.addr (w : InstrWord) : CellAddr := w.b2.setWidth 16 <<< 8 ||| w.b3.setWidth 16

/-- `target = (b1 << 16) | (b2 << 8) | b3`, high byte first (R99, R104). -/
def InstrWord.target (w : InstrWord) : Target :=
  w.b1.setWidth 24 <<< 16 ||| w.b2.setWidth 24 <<< 8 ||| w.b3.setWidth 24

/-- `OpLookup` of R114: the mnemonic of the configured revision whose opcode byte is `b`, or none (R107). -/
def Config.opLookup (c : Config) (b : Byte) : Option Mnemonic :=
  Mnemonic.all.find? fun m => c.has m && c.opcodes.opOf m == b

/-- R108: when a word whose opcode is known is malformed: (a) a Nullary word whose bytes differ, (b) a register byte
that names no register, (c) an RR word whose last byte is not zero. -/
def malformed (c : Config) (s : Shape) (w : InstrWord) : Bool :=
  match s with
  | .rrr => !(c.isReg w.b1 && c.isReg w.b2 && c.isReg w.b3)
  | .irr => !(c.isReg w.b2 && c.isReg w.b3)
  | .ra => !c.isReg w.b1
  | .rr => !(c.isReg w.b1 && c.isReg w.b2 && w.b3 == 0)
  | .jumpTarget => false
  | .nullary => !(w.b1 == w.b0 && w.b2 == w.b0 && w.b3 == w.b0)

/-- The instruction of a mnemonic with the fields of its word (R94 to R100). -/
def Mnemonic.build (m : Mnemonic) (w : InstrWord) : Instr :=
  match m with
  | .noop => .noop
  | .halt => .halt
  | .add => .add w.b1 w.b2 w.b3
  | .sub => .sub w.b1 w.b2 w.b3
  | .and => .and w.b1 w.b2 w.b3
  | .or => .or w.b1 w.b2 w.b3
  | .xor => .xor w.b1 w.b2 w.b3
  | .addi => .addi w.b1 w.b2 w.b3
  | .subi => .subi w.b1 w.b2 w.b3
  | .andi => .andi w.b1 w.b2 w.b3
  | .ori => .ori w.b1 w.b2 w.b3
  | .xori => .xori w.b1 w.b2 w.b3
  | .store => .store w.b1 w.addr
  | .load => .load w.b1 w.addr
  | .cmp => .cmp w.b1 w.b2
  | .jmp => .jmp w.target
  | .jeq => .jeq w.target
  | .jne => .jne w.target
  | .jlt => .jlt w.target
  | .jgt => .jgt w.target
  | .jal => .jal w.target
  | .ret => .ret

/-- Why a word is no instruction (R107, R108). Both are the source's `RuntimeOpcodeError`. -/
inductive DecodeError where
  /-- `b0` is no opcode of the configured revision (R107) -/
  | unknownOpcode
  /-- the opcode is known and the word breaks R108 -/
  | malformed
deriving DecidableEq, Repr

/-- Decode (R111): the opcode is looked up first, then the word is checked; only a word that passes both is an
instruction. Total on all words (R109). -/
def decode (c : Config) (w : InstrWord) : Except DecodeError Instr :=
  match c.opLookup w.b0 with
  | none => .error .unknownOpcode
  | some m => if malformed c m.shape w then .error .malformed else .ok (m.build w)

/-- A Nullary word: the opcode byte four times (R100). -/
def nullaryWord (b : Byte) : InstrWord := ⟨b, b, b, b⟩

/-- An RA word: opcode, register, address high byte first (R97). -/
def raWord (b : Byte) (r : RegIx) (a : CellAddr) : InstrWord := ⟨b, r, a.extractLsb' 8 8, a.extractLsb' 0 8⟩

/-- A JumpTarget word: opcode, target high byte first (R99). -/
def jumpWord (b : Byte) (t : Target) : InstrWord :=
  ⟨b, t.extractLsb' 16 8, t.extractLsb' 8 8, t.extractLsb' 0 8⟩

/-- The word of an instruction (R93 to R100, the "emitted word" column of R130). -/
def encode (c : Config) : Instr → InstrWord
  | .noop => nullaryWord c.opcodes.noop
  | .halt => nullaryWord c.opcodes.halt
  | .add rs1 rs2 rd => ⟨c.opcodes.add, rs1, rs2, rd⟩
  | .sub rs1 rs2 rd => ⟨c.opcodes.sub, rs1, rs2, rd⟩
  | .and rs1 rs2 rd => ⟨c.opcodes.and, rs1, rs2, rd⟩
  | .or rs1 rs2 rd => ⟨c.opcodes.or, rs1, rs2, rd⟩
  | .xor rs1 rs2 rd => ⟨c.opcodes.xor, rs1, rs2, rd⟩
  | .addi imm rs2 rd => ⟨c.opcodes.addi, imm, rs2, rd⟩
  | .subi imm rs2 rd => ⟨c.opcodes.subi, imm, rs2, rd⟩
  | .andi imm rs2 rd => ⟨c.opcodes.andi, imm, rs2, rd⟩
  | .ori imm rs2 rd => ⟨c.opcodes.ori, imm, rs2, rd⟩
  | .xori imm rs2 rd => ⟨c.opcodes.xori, imm, rs2, rd⟩
  | .store r a => raWord c.opcodes.store r a
  | .load r a => raWord c.opcodes.load r a
  | .cmp rs1 rs2 => ⟨c.opcodes.cmp, rs1, rs2, 0⟩
  | .jmp t => jumpWord c.opcodes.jmp t
  | .jeq t => jumpWord c.opcodes.jeq t
  | .jne t => jumpWord c.opcodes.jne t
  | .jlt t => jumpWord c.opcodes.jlt t
  | .jgt t => jumpWord c.opcodes.jgt t
  | .jal t => jumpWord c.opcodes.jal t
  | .ret => nullaryWord c.opcodes.ret

/-- The padding word is the `noop` word (R106). -/
def paddingWord (c : Config) : InstrWord := encode c .noop

/-- The word that spec/opcode_table.json numbers `w`: one 32-bit word, `b0` its bits 31..24 (R8, R91). Bits from
`nbits` on are zero (log entry 10). -/
def tableWord (nbits w : Nat) : InstrWord := InstrWord.ofBits (BitVec.ofNat 32 (w % 2 ^ nbits))

/-- The instruction the decoder reads from a word numbered as spec/opcode_table.json numbers it, under the reference
opcode assignment that table uses; none where the decoder refuses. -/
def decodeTableWord (nbits w : Nat) : Option Instr :=
  match decode Sys2Proof.Machine.referenceConfig (tableWord nbits w) with
  | .ok i => some i
  | .error _ => none

end Sys2Proof
end

