-- ==== Sys2Proof/Machine/State.lean ====
section
/-! DEFINITION. The state of BAC-CPU (spec/10_state.md R30 to R50), the seven fault causes (spec/60_exceptions.md
R210), the run-status latch (R47), the two outcomes that are no next state, and the state right after reset (R49,
spec/70_reset_and_hazards.md R250). -/

namespace Sys2Proof.Machine

open Sys2Proof

/-- The data memory bank: the cells that hold a value of their own, as (address, value) pairs with addresses strictly
rising. A cell that is not listed holds its MEM_INIT value (R62, R63; log entries 3 and 4). -/
abbrev Memory := List (Nat × Nat)

/-- The canonical form of a memory: addresses strictly rising. An unlisted cell has no stored value, so no entry can
equal what an unlisted cell holds (log entry 4). -/
abbrev Memory.wf (m : Memory) : Prop := m.Pairwise fun x y => x.1 < y.1

/-- The fault causes with the info each records (R210). They are values of the run-status latch, written by fault
entry (R215). -/
inductive FaultCause where
  /-- code 1: the image's length is not a multiple of 4; found once, before any step (R218) -/
  | imageLength (length : Nat)
  /-- code 2: the pc is not a multiple of 4 at a fetch (R211) -/
  | misalignedFetch (pc : PcWord)
  /-- code 3: the word at the pc does not lie inside the image (R212) -/
  | fetchOutOfRange (pc : PcWord)
  /-- code 4: `RuntimeOpcodeError`, the opcode byte is no opcode of the revision (R213) -/
  | unknownOpcode (pc : PcWord) (word : InstrWord)
  /-- code 5: `RuntimeOpcodeError`, a known opcode in a malformed word (R214) -/
  | malformed (pc : PcWord) (word : InstrWord)
  /-- code 6: `RuntimeStackError`, `ret` on an empty return-address stack (R216) -/
  | stackUnderflow (pc : PcWord)
  /-- code 7: `RuntimeStackError`, `jal` on a full return-address stack (R217) -/
  | stackOverflow (pc : PcWord)
deriving DecidableEq, Repr

/-- The run-status latch (R47). -/
inductive Status where
  | running
  | halted
  | faulted (cause : FaultCause)
deriving DecidableEq, Repr

/-- The whole state (R49), the parameters it runs under (R7) and the number of the MEM_INIT draw (R63). -/
structure State where
  /-- the parameters of the machine; no step changes them (R7; log entry 1) -/
  cfg : Config
  /-- the register file r0 .. r(N−1), each value in [0, 2^W) (R30, R31); r1 is the flag register (R34) -/
  regs : List Nat
  /-- the program counter, a byte index into the image (R40) -/
  pc : PcWord
  /-- the return-address stack, its top first (R45) -/
  ras : List PcWord
  /-- the data memory bank (R62, R63) -/
  mem : Memory
  /-- the MODEL'S OWN field: which MEM_INIT this run drew (R63; log entry 3) -/
  memDraw : Nat
  /-- the instruction image imem[0 .. L−1] (R61) -/
  image : List Byte
  /-- the run-status latch (R47) -/
  status : Status
deriving DecidableEq, Repr

/-- The outcomes `fault`: the machine is asked for a step that the spec does not enable. A fault of the SPEC is no
such outcome: it is a next state whose status is `faulted` (R215; log entry 5). -/
inductive Fault where
  /-- raised by `step` alone, when the status is Halted: "After `halt`, no further step is enabled" (R200, R231).
  Safe: the model stops where the spec has no step. -/
  | alreadyHalted
  /-- raised by `step` alone, when the status is Faulted: "no further step is enabled" (R215, R222). Safe: the model
  stops where the spec has no step. -/
  | alreadyFaulted (cause : FaultCause)
deriving DecidableEq, Repr

/-- The outcomes `refused`. -/
inductive Refusal where
  /-- for an arm of `exec` without a meaning. No arm is without one, so nothing raises it. Safe: a refusal proves
  nothing about the hardware. -/
  | notModelled (mnemonic : String)
deriving DecidableEq, Repr

/-- The machine right after reset (R49, R250, R252): every register 0, pc 0, the return-address stack empty, no data
cell stored to (MEM_INIT), and status Running since the empty image's length is a multiple of 4 (R251). No program is
loaded: the image is empty (log entry 8). The parameters are the reference configuration (log entries 1 and 2). -/
def State.reset : State where
  cfg := referenceConfig
  regs := List.replicate referenceConfig.numRegs 0
  pc := 0
  ras := []
  mem := []
  memDraw := 0
  image := []
  status := .running

end Sys2Proof.Machine
end

