-- ==== Sys2Proof/Machine/Ops.lean ====
section
/-! DEFINITION. The named operations of the core: registers and data memory (spec/00_scope.md R11), the
return-address stack (spec/10_state.md R45), the program counter (spec/30_encoding.md R113), and taking a fault
(spec/60_exceptions.md R215). There is no return from a fault beside it: R222 says that none exists. -/

namespace Sys2Proof.Machine

open Sys2Proof

/-! ### The data memory as a list in canonical form -/

/-- The value a cell was given, if it was given one. -/
def Memory.lookup : Memory → Nat → Option Nat
  | [], _ => none
  | (b, v) :: m, a => if a = b then some v else Memory.lookup m a

/-- Give a cell a value, keeping the addresses strictly rising. -/
def Memory.insert : Memory → Nat → Nat → Memory
  | [], a, v => [(a, v)]
  | (b, w) :: m, a, v =>
    if a < b then (a, v) :: (b, w) :: m
    else if a = b then (a, v) :: m
    else (b, w) :: Memory.insert m a v

/-! ### Registers -/

/-- The index of the flag register: r1 (R34). -/
def flagReg : RegIx := 1

/-- The register is r0 and r0 is hardwired to zero (R33). -/
def hardwired (s : State) (i : RegIx) : Bool := s.cfg.r0Hardwired && i == 0

/-- `x[i]` (R11): the register's value, 0 for a hardwired r0. An index that names no register reaches no instruction
rule (R12); the function answers 0 there (log entry 6). -/
def readReg (s : State) (i : RegIx) : Nat :=
  if hardwired s i then 0 else s.regs.getD i.toNat 0

/-- `x[i] <- v` (R11, R31): the exact integer `v` reduced mod 2^W; no effect on a hardwired r0. -/
def writeReg (s : State) (i : RegIx) (v : Int) : State :=
  { s with regs := if hardwired s i then s.regs else s.regs.set i.toNat (v % (s.cfg.modulus : Int)).toNat }

/-! ### Data memory -/

/-- `MemRead(a)` (R11, R63): the value of the latest store to the cell, else the cell's MEM_INIT value, a free value
reduced to the cell's W bits. -/
def memRead (s : State) (a : CellAddr) : Nat :=
  (s.mem.lookup a.toNat).getD (Config.memInit s.memDraw a.toNat % s.cfg.modulus)

/-- `MemWrite(a, v)` (R11): the cell takes the whole value (R160: no truncation). -/
def memWrite (s : State) (a : CellAddr) (v : Nat) : State :=
  { s with mem := s.mem.insert a.toNat v }

/-! ### The program counter -/

/-- `pc <- t` (R11). -/
def setPc (s : State) (t : PcWord) : State := { s with pc := t }

/-- `pc <- pc + 4`, the next-pc rule of the straight-line class and of a branch not taken (R42, R113). -/
def advance (s : State) : State := setPc s (s.pc + 4)

/-! ### The return-address stack -/

/-- The stack holds RAS_DEPTH entries (R46, R217). -/
def rasFull (s : State) : Bool := decide (s.cfg.rasDepth ≤ s.ras.length)

/-- `Push(v)` (R11). -/
def push (s : State) (v : PcWord) : State := { s with ras := v :: s.ras }

/-- The stack without its top entry, what `Pop()` leaves (R11). -/
def dropTop (s : State) : State := { s with ras := s.ras.tail }

/-! ### The run status -/

/-- `status <- Halted` (R11, R200). -/
def setHalted (s : State) : State := { s with status := .halted }

/-- TAKING A FAULT (R215): the status takes the cause with its recorded info; the pc, every register, every memory
cell and the return-address stack keep their values. There is no handler address, no saved pc and no mode (R221,
R226), and nothing returns from it (R222). -/
def raiseFault (s : State) (c : FaultCause) : State := { s with status := .faulted c }

/-- The numeric code of a cause (R210). -/
def FaultCause.code : FaultCause → Nat
  | .imageLength _ => 1
  | .misalignedFetch _ => 2
  | .fetchOutOfRange _ => 3
  | .unknownOpcode _ _ => 4
  | .malformed _ _ => 5
  | .stackUnderflow _ => 6
  | .stackOverflow _ => 7

/-- The error classes that the source names (R210). -/
inductive SourceErrorClass where
  | runtimeOpcodeError
  | runtimeStackError
deriving DecidableEq, Repr

/-- The source's error class of a cause, where the source names one (R210). -/
def FaultCause.sourceClass : FaultCause → Option SourceErrorClass
  | .imageLength _ => none
  | .misalignedFetch _ => none
  | .fetchOutOfRange _ => none
  | .unknownOpcode _ _ => some .runtimeOpcodeError
  | .malformed _ _ => some .runtimeOpcodeError
  | .stackUnderflow _ => some .runtimeStackError
  | .stackOverflow _ => some .runtimeStackError

/-- What an instruction rule answers. -/
abbrev StepOutcome := Host.Outcome State Fault Refusal

end Sys2Proof.Machine
end

