-- ==== Sys2Proof/Machine/Operands.lean ====
section
/-! DEFINITION. The operand forms (spec/30_encoding.md R95, R102 to R105; spec/40_alu.md R140): a register, an
immediate, a data address, a jump target. -/

namespace Sys2Proof.Machine

open Sys2Proof

/-- The first operand of an ALU instruction (R140): a register for the RRR forms, an immediate byte for the IRR
forms. -/
inductive Operand1 where
  | reg (r : RegIx)
  | imm (b : Byte)
deriving DecidableEq, Repr

/-- `zext_W(b)`: the immediate byte as a register value, zero-extended (R102; decision D9). -/
def immValue (b : Byte) : Nat := b.toNat

/-- The value of the first operand (R140). -/
def Operand1.value (s : State) : Operand1 → Nat
  | .reg r => readReg s r
  | .imm b => immValue b

/-- `zext_32(target)`: the jump target as a pc (R43, R180). -/
def targetPc (t : Target) : PcWord := t.setWidth 32

end Sys2Proof.Machine
end

