-- ==== Sys2Proof/Machine/Flags.lean ====
section
/-! DEFINITION. The comparison outcome that `cmp` writes into the flag register r1 and the predicates the conditional
jumps read from it (spec/10_state.md R34 to R38, spec/42_compare.md R170, R171, spec/43_control.md R182 to R185).
The core has no other flag (R39). -/

namespace Sys2Proof.Machine

open Sys2Proof

/-- The one decision of `cmp` (R170), on the unsigned values (R171): never CODE_NE. -/
def compareCode (c : CompareCodes) (a b : Nat) : Nat :=
  if a < b then c.lt else if b < a then c.gt else c.eq

/-- The flag register's value: `x[1]` (R34). -/
def flagValue (s : State) : Nat := readReg s flagReg

/-- Equal: `x[1] = CODE_EQ` (R182). -/
def flagEqual (s : State) : Bool := flagValue s == s.cfg.codes.eq

/-- NotEqual: `x[1] ≠ CODE_EQ`, the negation of Equal and no code of its own (R183; spec/90_conflicts.md C1). -/
def flagNotEqual (s : State) : Bool := !flagEqual s

/-- Less: `x[1] = CODE_LT` (R184). -/
def flagLess (s : State) : Bool := flagValue s == s.cfg.codes.lt

/-- Greater: `x[1] = CODE_GT` (R185). -/
def flagGreater (s : State) : Bool := flagValue s == s.cfg.codes.gt

end Sys2Proof.Machine
end

