-- ==== Sys2Proof/Machine/Alu.lean ====
section
/-! DEFINITION. The ALU instructions (spec/40_alu.md R140 to R153). -/

namespace Sys2Proof.Machine

open Sys2Proof

/-- Exact integer sum (R9, R141); the register write reduces it. -/
def aluAdd (a b : Nat) : Int := (a : Int) + (b : Int)

/-- Exact integer difference, first operand minus second (R9, R142; decision D8). -/
def aluSub (a b : Nat) : Int := (a : Int) - (b : Int)

/-- Bitwise AND (R143). -/
def aluAnd (a b : Nat) : Int := ((a &&& b : Nat) : Int)

/-- Bitwise OR (R144). -/
def aluOr (a b : Nat) : Int := ((a ||| b : Nat) : Int)

/-- Bitwise exclusive OR (R145). -/
def aluXor (a b : Nat) : Int := ((a ^^^ b : Nat) : Int)

/-- The common semantics of R140: both operands are read, the result goes to `rd` mod 2^W, then `pc <- pc + 4`. -/
def aluOp (op : Nat → Nat → Int) (o1 : Operand1) (rs2 rd : RegIx) (s : State) : StepOutcome :=
  .next (advance (writeReg s rd (op (o1.value s) (readReg s rs2))))

/-- `add rs1 rs2 rd` (R141). -/
def execAdd (rs1 rs2 rd : RegIx) (s : State) : StepOutcome := aluOp aluAdd (.reg rs1) rs2 rd s

/-- `sub rs1 rs2 rd` (R142): rs1 is the minuend. -/
def execSub (rs1 rs2 rd : RegIx) (s : State) : StepOutcome := aluOp aluSub (.reg rs1) rs2 rd s

/-- `and rs1 rs2 rd` (R143). -/
def execAnd (rs1 rs2 rd : RegIx) (s : State) : StepOutcome := aluOp aluAnd (.reg rs1) rs2 rd s

/-- `or rs1 rs2 rd` (R144). -/
def execOr (rs1 rs2 rd : RegIx) (s : State) : StepOutcome := aluOp aluOr (.reg rs1) rs2 rd s

/-- `xor rs1 rs2 rd` (R145). -/
def execXor (rs1 rs2 rd : RegIx) (s : State) : StepOutcome := aluOp aluXor (.reg rs1) rs2 rd s

/-- `addi imm rs2 rd` (R146). -/
def execAddi (imm : Byte) (rs2 rd : RegIx) (s : State) : StepOutcome := aluOp aluAdd (.imm imm) rs2 rd s

/-- `subi imm rs2 rd` (R147): the immediate is the minuend. -/
def execSubi (imm : Byte) (rs2 rd : RegIx) (s : State) : StepOutcome := aluOp aluSub (.imm imm) rs2 rd s

/-- `andi imm rs2 rd` (R148). -/
def execAndi (imm : Byte) (rs2 rd : RegIx) (s : State) : StepOutcome := aluOp aluAnd (.imm imm) rs2 rd s

/-- `ori imm rs2 rd` (R149). -/
def execOri (imm : Byte) (rs2 rd : RegIx) (s : State) : StepOutcome := aluOp aluOr (.imm imm) rs2 rd s

/-- `xori imm rs2 rd` (R150). -/
def execXori (imm : Byte) (rs2 rd : RegIx) (s : State) : StepOutcome := aluOp aluXor (.imm imm) rs2 rd s

end Sys2Proof.Machine
end

