-- ==== Sys2Proof/Machine/Compare.lean ====
section
/-! DEFINITION. Compare (spec/42_compare.md R170 to R173): the one writer of a comparison outcome. -/

namespace Sys2Proof.Machine

open Sys2Proof

/-- `cmp rs1 rs2` (R170): both registers are read before r1 takes the outcome's code; `pc <- pc + 4`. -/
def execCmp (rs1 rs2 : RegIx) (s : State) : StepOutcome :=
  .next (advance (writeReg s flagReg (compareCode s.cfg.codes (readReg s rs1) (readReg s rs2) : Int)))

end Sys2Proof.Machine
end

