-- ==== Sys2Proof/Machine/Control.lean ====
section
/-! DEFINITION. Control transfer (spec/43_control.md R180 to R191): jumps, call and return. No delay slot (R190); the
target is checked at the next fetch, not at the jump (R191). -/

namespace Sys2Proof.Machine

open Sys2Proof

/-- The next pc of a JumpTarget instruction (R180): the zero-extended target when taken, else pc + 4. -/
def transfer (taken : Bool) (t : Target) (s : State) : State :=
  if taken then setPc s (targetPc t) else advance s

/-- `jmp target` (R181). -/
def execJmp (t : Target) (s : State) : StepOutcome := .next (transfer true t s)

/-- `jeq target` (R182). -/
def execJeq (t : Target) (s : State) : StepOutcome := .next (transfer (flagEqual s) t s)

/-- `jne target` (R183). -/
def execJne (t : Target) (s : State) : StepOutcome := .next (transfer (flagNotEqual s) t s)

/-- `jlt target` (R184). -/
def execJlt (t : Target) (s : State) : StepOutcome := .next (transfer (flagLess s) t s)

/-- `jgt target` (R185). -/
def execJgt (t : Target) (s : State) : StepOutcome := .next (transfer (flagGreater s) t s)

/-- `jal target` (R186): on a full stack the StackOverflow fault is taken with no push and no jump (R217); else the
pc of this very `jal` is pushed, not pc + 4, and the target is taken. -/
def execJal (t : Target) (s : State) : StepOutcome :=
  .next (if rasFull s then raiseFault s (.stackOverflow s.pc) else setPc (push s s.pc) (targetPc t))

/-- `ret` (R187): on an empty stack the StackUnderflow fault is taken with nothing changed (R216); else the pc takes
the popped address itself, not + 4. -/
def execRet (s : State) : StepOutcome :=
  match s.ras with
  | [] => .next (raiseFault s (.stackUnderflow s.pc))
  | a :: _ => .next (setPc (dropTop s) a)

end Sys2Proof.Machine
end

