-- ==== Sys2Proof/Machine/LoadStore.lean ====
section
/-! DEFINITION. Load and store (spec/41_load_store.md R160 to R163): one whole cell at the absolute address. -/

namespace Sys2Proof.Machine

open Sys2Proof

/-- `store r addr` (R160): `MemWrite(addr, x[r])`; `pc <- pc + 4`. -/
def execStore (r : RegIx) (addr : CellAddr) (s : State) : StepOutcome :=
  .next (advance (memWrite s addr (readReg s r)))

/-- `load r addr` (R161): `x[r] <- MemRead(addr)`; `pc <- pc + 4`. -/
def execLoad (r : RegIx) (addr : CellAddr) (s : State) : StepOutcome :=
  .next (advance (writeReg s r (memRead s addr : Int)))

end Sys2Proof.Machine
end

