-- ==== Sys2Proof/Machine/SystemOps.lean ====
section
/-! DEFINITION. The system instructions (spec/44_system.md R200 to R203): `halt` and `noop`, the latter also the
padding word (R106, R202). -/

namespace Sys2Proof.Machine

open Sys2Proof

/-- `halt` (R200): `pc <- pc + 4`; `status <- Halted`. -/
def execHalt (s : State) : StepOutcome := .next (setHalted (advance s))

/-- `noop` (R201): `pc <- pc + 4`. -/
def execNoop (s : State) : StepOutcome := .next (advance s)

end Sys2Proof.Machine
end

