-- ==== Sys2Proof/Machine/Dispatch.lean ====
section
/-! DEFINITION. One arm per instruction: the rule column of spec/30_encoding.md R101 (R112). -/

namespace Sys2Proof.Machine

open Sys2Proof

def exec (i : Instr) (s : State) : Host.Outcome State Fault Refusal :=
  match i with
  | .noop => Sys2Proof.Machine.execNoop s
  | .halt => Sys2Proof.Machine.execHalt s
  | .add rs1 rs2 rd => Sys2Proof.Machine.execAdd rs1 rs2 rd s
  | .sub rs1 rs2 rd => Sys2Proof.Machine.execSub rs1 rs2 rd s
  | .and rs1 rs2 rd => Sys2Proof.Machine.execAnd rs1 rs2 rd s
  | .or rs1 rs2 rd => Sys2Proof.Machine.execOr rs1 rs2 rd s
  | .xor rs1 rs2 rd => Sys2Proof.Machine.execXor rs1 rs2 rd s
  | .addi imm rs2 rd => Sys2Proof.Machine.execAddi imm rs2 rd s
  | .subi imm rs2 rd => Sys2Proof.Machine.execSubi imm rs2 rd s
  | .andi imm rs2 rd => Sys2Proof.Machine.execAndi imm rs2 rd s
  | .ori imm rs2 rd => Sys2Proof.Machine.execOri imm rs2 rd s
  | .xori imm rs2 rd => Sys2Proof.Machine.execXori imm rs2 rd s
  | .store r addr => Sys2Proof.Machine.execStore r addr s
  | .load r addr => Sys2Proof.Machine.execLoad r addr s
  | .cmp rs1 rs2 => Sys2Proof.Machine.execCmp rs1 rs2 s
  | .jmp target => Sys2Proof.Machine.execJmp target s
  | .jeq target => Sys2Proof.Machine.execJeq target s
  | .jne target => Sys2Proof.Machine.execJne target s
  | .jlt target => Sys2Proof.Machine.execJlt target s
  | .jgt target => Sys2Proof.Machine.execJgt target s
  | .jal target => Sys2Proof.Machine.execJal target s
  | .ret => Sys2Proof.Machine.execRet s

end Sys2Proof.Machine
end

