-- ==== Sys2Proof/Machine/Fetch.lean ====
section
/-! DEFINITION. Fetch and decode of the word at the pc with the faults of each, in the spec's order of priority
(spec/30_encoding.md R110, R111, R114; spec/60_exceptions.md R211 to R214, R219), the trace record of a fetch, and
the placing of a word in the image. -/

namespace Sys2Proof.Machine

open Sys2Proof

/-- `Fetch(a)` (R11): the four image bytes at a .. a+3. It is used only where all four exist (R110). -/
def imageWord (img : List Byte) (a : Nat) : InstrWord where
  b0 := img.getD a 0
  b1 := img.getD (a + 1) 0
  b2 := img.getD (a + 2) 0
  b3 := img.getD (a + 3) 0

/-- The fetch of R110: first `pc mod 4 = 0`, else MisalignedFetch (R211); then `pc + 4 ≤ L`, else FetchOutOfRange
(R212). The pc is read as a natural number, so `pc + 4` does not wrap (R44). -/
def fetch (s : State) : Except FaultCause InstrWord :=
  if s.pc.toNat % 4 ≠ 0 then .error (.misalignedFetch s.pc)
  else if s.image.length < s.pc.toNat + 4 then .error (.fetchOutOfRange s.pc)
  else .ok (imageWord s.image s.pc.toNat)

/-- The fault cause of a decode error at a pc (R213, R214). -/
def decodeFault (pc : PcWord) (w : InstrWord) : DecodeError → FaultCause
  | .unknownOpcode => .unknownOpcode pc w
  | .malformed => .malformed pc w

/-- Fetch, then decode (R114). -/
def fetchDecode (s : State) : Except FaultCause Instr :=
  match fetch s with
  | .error c => .error c
  | .ok w =>
    match decode s.cfg w with
    | .error e => .error (decodeFault s.pc w e)
    | .ok i => .ok i

/-- A trace record: the pc and the raw bytes of a fetched word (R15, R110, R230). -/
structure TraceRecord where
  pc : PcWord
  word : InstrWord
deriving DecidableEq, Repr

/-- The record that a step from `s` emits to the observation sink: one per successful fetch, before decode, none for a
failed fetch (R110; decision D28). The trace is no part of the state (R230; log entry 9). -/
def traceRecord? (s : State) : Option TraceRecord :=
  match s.status with
  | .running =>
    match fetch s with
    | .ok w => some ⟨s.pc, w⟩
    | .error _ => none
  | .halted => none
  | .faulted _ => none

/-- The image with a word at byte address `a`, extended with zero bytes where it ended before `a`. -/
def placeWord (img : List Byte) (a : Nat) (w : InstrWord) : List Byte :=
  (img ++ List.replicate (a - img.length) 0).take a ++ w.bytes ++ img.drop (a + 4)

/-- The address of the image slot that the pc lies in: the pc itself when it is aligned. -/
def slotAddr (s : State) : Nat := s.pc.toNat / 4 * 4

end Sys2Proof.Machine
end

