-- ==== Sys2Proof/Machine/Step.lean ====
section
/-! DEFINITION. One step of the machine (spec/30_encoding.md R114) and the loading of one word where the next step
fetches. -/

namespace Sys2Proof.Machine

open Sys2Proof

/-- `Step` of R114, enabled only while the status is Running (R47). A fetch or decode fault is taken by `raiseFault`
(R215); a word that passes both checks runs its instruction. A stopped machine has no step: the outcome is a fault of
the MODEL, by name (log entry 5). -/
def step (s : State) : Host.Outcome State Fault Refusal :=
  match s.status with
  | .halted => .fault .alreadyHalted
  | .faulted c => .fault (.alreadyFaulted c)
  | .running =>
    match fetchDecode s with
    | .error c => .next (raiseFault s c)
    | .ok i => exec i s

/-- The state with the word that spec/opcode_table.json numbers `w` stored in the image where the next step fetches,
and the machine running: it stands for the host's LoadImage and Run (R15, R254; log entry 8). A pc that is no
multiple of 4 could fetch nothing (R211), so it is taken to its slot. -/
def State.withFetchWord (s : State) (nbits w : Nat) : State :=
  { s with
    image := placeWord s.image (slotAddr s) (tableWord nbits w)
    pc := BitVec.ofNat 32 (slotAddr s)
    status := .running }

end Sys2Proof.Machine
end

