-- ==== Sys2Proof/Machine/Assembler.lean ====
section
/-! DEFINITION. The two-pass assembler and the disassembler (spec/30_encoding.md R120 to R136): toolchain, not hardware
(spec/00_scope.md R5). No step of the machine uses this file. Text is a list of characters. -/

namespace Sys2Proof.Machine

open Sys2Proof

/-- Source text, a line, or a token of it. -/
abbrev Text := List Char

/-- The three build-time errors (R5, R132). -/
inductive AsmErrorKind where
  | syntaxError
  | labelError
  | operandRangeError
deriving DecidableEq, Repr

/-- An assembler error: its kind, the 1-based source line and a message (R132; the messages' texts: log entry 13). -/
structure AsmError where
  kind : AsmErrorKind
  line : Nat
  message : String
deriving DecidableEq, Repr

/-- Label names with their image addresses, in declaration order (R122). -/
abbrev SymbolTable := List (Text × Nat)

/-! ### Lines and tokens (R120, R124) -/

/-- White space inside a line (R120, R124; log entry 11). -/
def isBlank (ch : Char) : Bool := ch == ' ' || ch == '\t' || ch == '\r'

/-- The source's lines: split at every newline, so a text without one is one line (R120; log entry 11). -/
def splitLines : Text → List Text
  | [] => [[]]
  | ch :: cs =>
    if ch = '\n' then [] :: splitLines cs
    else
      match splitLines cs with
      | [] => [[ch]]
      | l :: ls => (ch :: l) :: ls

/-- Without white space at either end. -/
def trim (t : Text) : Text := ((t.dropWhile isBlank).reverse.dropWhile isBlank).reverse

/-- A line without its comment, trimmed (R120, R134). -/
def stripLine (t : Text) : Text := trim (t.takeWhile fun ch => ch != ';')

/-- What a line is (R120). -/
inductive LineForm where
  | empty
  | label (name : Text)
  | instruction (text : Text)
deriving DecidableEq, Repr

/-- The form of a line (R120, R122). -/
def lineForm (t : Text) : LineForm :=
  match stripLine t with
  | [] => .empty
  | ch :: cs => if ch = '.' then .label (trim cs) else .instruction (ch :: cs)

/-- One token, unless it is empty; its characters come last first. -/
def flushToken (acc : Text) : List Text := if acc = [] then [] else [acc.reverse]

/-- The tokens of a text whose first token has already begun with `acc` (R124; spec/90_conflicts.md C3). -/
def tokensFrom (acc : Text) : Text → List Text
  | [] => flushToken acc
  | ch :: cs => if isBlank ch then flushToken acc ++ tokensFrom [] cs else tokensFrom (ch :: acc) cs

/-- The tokens of a line: split on runs of white space (R124). -/
def tokens (t : Text) : List Text := tokensFrom [] t

/-- Case-normalised (R124, R126). -/
def lower (t : Text) : Text := t.map Char.toLower

/-! ### Mnemonics (R101, R124) -/

/-- The mnemonic's spelling (R101). -/
def mnemonicText (m : Mnemonic) : Text :=
  match m with
  | .noop => "noop".toList
  | .halt => "halt".toList
  | .add => "add".toList
  | .sub => "sub".toList
  | .and => "and".toList
  | .or => "or".toList
  | .xor => "xor".toList
  | .addi => "addi".toList
  | .subi => "subi".toList
  | .andi => "andi".toList
  | .ori => "ori".toList
  | .xori => "xori".toList
  | .store => "store".toList
  | .load => "load".toList
  | .cmp => "cmp".toList
  | .jmp => "jmp".toList
  | .jeq => "jeq".toList
  | .jne => "jne".toList
  | .jlt => "jlt".toList
  | .jgt => "jgt".toList
  | .jal => "jal".toList
  | .ret => "ret".toList

/-- The mnemonic of the configured revision that a token spells, whatever its case (R124). -/
def findMnemonic (c : Config) (t : Text) : Option Mnemonic :=
  Mnemonic.all.find? fun m => c.has m && mnemonicText m == lower t

/-- The operand pattern of a shape, named in the message for a wrong token count (R125, R130). -/
def shapePattern : Shape → String
  | .rrr => "rs1 rs2 rd"
  | .irr => "imm rs2 rd"
  | .ra => "r addr"
  | .rr => "rs1 rs2"
  | .jumpTarget => "target"
  | .nullary => "no operand"

/-- The token count of a shape, the mnemonic included (R125). -/
def tokenCount : Shape → Nat
  | .rrr => 4
  | .irr => 4
  | .ra => 3
  | .rr => 3
  | .jumpTarget => 2
  | .nullary => 1

/-! ### Operands (R126 to R129) -/

/-- The value of a decimal digit. -/
def decDigit (ch : Char) : Option Nat := if ch.isDigit then some (ch.toNat - '0'.toNat) else none

/-- The value of a hexadecimal digit of either case. -/
def hexDigit (ch : Char) : Option Nat :=
  if ch.isDigit then some (ch.toNat - '0'.toNat)
  else if 'a' ≤ ch ∧ ch ≤ 'f' then some (ch.toNat - 'a'.toNat + 10)
  else if 'A' ≤ ch ∧ ch ≤ 'F' then some (ch.toNat - 'A'.toNat + 10)
  else none

/-- The value of a digit string read after digits worth `acc`; none when a character is no digit. -/
def numeralFrom (digit : Char → Option Nat) (base : Nat) : Nat → Text → Option Nat
  | acc, [] => some acc
  | acc, ch :: cs =>
    match digit ch with
    | none => none
    | some d => numeralFrom digit base (base * acc + d) cs

/-- One or more decimal digits, no sign, leading zeros allowed (R126, R127, R129; decision D32). -/
def parseDec (t : Text) : Option Nat := if t = [] then none else numeralFrom decDigit 10 0 t

/-- A token without an optional `0x` or `0X` (R128; decision D31). -/
def dropHexPrefix : Text → Text
  | a :: b :: cs => if a = '0' ∧ (b = 'x' ∨ b = 'X') then cs else a :: b :: cs
  | t => t

/-- One or more hexadecimal digits with an optional prefix (R128; decision D31). -/
def parseHex (t : Text) : Option Nat :=
  if dropHexPrefix t = [] then none else numeralFrom hexDigit 16 0 (dropHexPrefix t)

/-- The register aliases of the rich revision: `zero` and `comp` (R126). -/
def registerAlias (c : Config) (t : Text) : Option RegIx :=
  match c.revision with
  | .small => none
  | .rich =>
    if lower t = "zero".toList then some 0
    else if lower t = "comp".toList then some 1
    else none

/-- A register operand (R126). -/
def parseReg (c : Config) (t : Text) : Except AsmErrorKind RegIx :=
  match parseDec t with
  | some v => if v < c.numRegs then .ok (BitVec.ofNat 8 v) else .error .operandRangeError
  | none =>
    match registerAlias c t with
    | some r => .ok r
    | none => .error .operandRangeError

/-- An immediate operand (R127). -/
def parseImm (t : Text) : Except AsmErrorKind Byte :=
  match parseDec t with
  | some v => if v ≤ 255 then .ok (BitVec.ofNat 8 v) else .error .operandRangeError
  | none => .error .operandRangeError

/-- A memory-address operand (R128). -/
def parseAddr (t : Text) : Except AsmErrorKind CellAddr :=
  match parseHex t with
  | some v => if v ≤ 0xFFFF then .ok (BitVec.ofNat 16 v) else .error .operandRangeError
  | none => .error .operandRangeError

/-- A label's address in the table. -/
def lookupLabel : SymbolTable → Text → Option Nat
  | [], _ => none
  | (name, a) :: tab, t => if t = name then some a else lookupLabel tab t

/-- A label reference without an optional leading dot (R129; spec/90_conflicts.md C2). -/
def labelName : Text → Text
  | [] => []
  | ch :: cs => if ch = '.' then cs else ch :: cs

/-- A jump-target operand (R129): a decimal literal, or a label. A label that lies past 24 bits is refused as out of
range (log entry 12). -/
def parseTarget (tab : SymbolTable) (t : Text) : Except AsmErrorKind Target :=
  match parseDec t with
  | some v => if v ≤ 0xFFFFFF then .ok (BitVec.ofNat 24 v) else .error .operandRangeError
  | none =>
    match lookupLabel tab (labelName t) with
    | some a => if a ≤ 0xFFFFFF then .ok (BitVec.ofNat 24 a) else .error .operandRangeError
    | none => .error .labelError

/-! ### Pass 2: one word per line (R123, R130, R131) -/

/-- The emitted word of a mnemonic with its operand tokens (R130). The token count has been checked (R125). -/
def emitWord (c : Config) (tab : SymbolTable) (m : Mnemonic) (ops : List Text) : Except AsmErrorKind InstrWord :=
  match m.shape, ops with
  | .rrr, [x, y, z] => do
    let rs1 ← parseReg c x
    let rs2 ← parseReg c y
    let rd ← parseReg c z
    return ⟨c.opcodes.opOf m, rs1, rs2, rd⟩
  | .irr, [x, y, z] => do
    let imm ← parseImm x
    let rs2 ← parseReg c y
    let rd ← parseReg c z
    return ⟨c.opcodes.opOf m, imm, rs2, rd⟩
  | .ra, [x, y] => do
    let r ← parseReg c x
    let a ← parseAddr y
    return raWord (c.opcodes.opOf m) r a
  | .rr, [x, y] => do
    let rs1 ← parseReg c x
    let rs2 ← parseReg c y
    return ⟨c.opcodes.opOf m, rs1, rs2, 0⟩
  | .jumpTarget, [x] => do
    let t ← parseTarget tab x
    return jumpWord (c.opcodes.opOf m) t
  | .nullary, [] => return nullaryWord (c.opcodes.opOf m)
  | _, _ => .error .syntaxError

/-- The message for an operand error (R132; its text: log entry 13). -/
def operandMessage : AsmErrorKind → String
  | .syntaxError => "wrong operands"
  | .labelError => "unknown label"
  | .operandRangeError => "operand out of range"

/-- The word of one line: the padding word for an empty or a label line (R123), else the instruction's (R124, R125,
R131). -/
def assembleLine (c : Config) (tab : SymbolTable) (line : Nat) (t : Text) : Except AsmError InstrWord :=
  match lineForm t with
  | .empty => .ok (paddingWord c)
  | .label _ => .ok (paddingWord c)
  | .instruction text =>
    match tokens text with
    | [] => .ok (paddingWord c)
    | mt :: ops =>
      match findMnemonic c mt with
      | none => .error ⟨.syntaxError, line, "unknown instruction"⟩
      | some m =>
        if ops.length + 1 = tokenCount m.shape then
          match emitWord c tab m ops with
          | .ok w => .ok w
          | .error k => .error ⟨k, line, operandMessage k⟩
        else .error ⟨.syntaxError, line, "expected operands: " ++ shapePattern m.shape⟩

/-- The words of the lines from 0-based line `k` on; the first error ends it (R132). -/
def assembleLines (c : Config) (tab : SymbolTable) : Nat → List Text → Except AsmError (List InstrWord)
  | _, [] => .ok []
  | k, l :: ls =>
    match assembleLine c tab (k + 1) l with
    | .error e => .error e
    | .ok w =>
      match assembleLines c tab (k + 1) ls with
      | .error e => .error e
      | .ok ws => .ok (w :: ws)

/-! ### Pass 1 and the whole (R122, R132, R133) -/

/-- Pass 1 over the lines from 0-based line `k` on (R122): a label's address is its own line's. -/
def collectLabels : Nat → List Text → SymbolTable → Except AsmError SymbolTable
  | _, [], tab => .ok tab
  | k, l :: ls, tab =>
    match lineForm l with
    | .empty => collectLabels (k + 1) ls tab
    | .instruction _ => collectLabels (k + 1) ls tab
    | .label name =>
      if name = [] then .error ⟨.labelError, k + 1, "empty label name"⟩
      else if (lookupLabel tab name).isSome then .error ⟨.labelError, k + 1, "label already exists"⟩
      else collectLabels (k + 1) ls (tab ++ [(name, k * 4)])

/-- `assemble(sourceText)` (R132): the program image with the symbol table, or the first error; pass 1 is whole before
pass 2 starts (R122). -/
def assemble (c : Config) (source : Text) : Except AsmError (List Byte × SymbolTable) :=
  match collectLabels 0 (splitLines source) [] with
  | .error e => .error e
  | .ok tab =>
    match assembleLines c tab 0 (splitLines source) with
    | .error e => .error e
    | .ok words => .ok (words.flatMap InstrWord.bytes, tab)

/-! ### Disassembly (R136) -/

/-- A number in decimal. -/
def decText (n : Nat) : Text := Nat.toDigits 10 n

/-- A number in hexadecimal, lower case, no prefix (log entry 14). -/
def hexText (n : Nat) : Text := Nat.toDigits 16 n

/-- A mnemonic and its operands, one space between (R136, R130; log entry 14). -/
def printLine (m : Mnemonic) (ops : List Text) : Text :=
  mnemonicText m ++ ops.flatMap fun t => ' ' :: t

/-- The source line of an instruction, in the syntax of R130 (R136). -/
def printInstr (i : Instr) : Text :=
  match i with
  | .noop => printLine .noop []
  | .halt => printLine .halt []
  | .add rs1 rs2 rd => printLine .add [decText rs1.toNat, decText rs2.toNat, decText rd.toNat]
  | .sub rs1 rs2 rd => printLine .sub [decText rs1.toNat, decText rs2.toNat, decText rd.toNat]
  | .and rs1 rs2 rd => printLine .and [decText rs1.toNat, decText rs2.toNat, decText rd.toNat]
  | .or rs1 rs2 rd => printLine .or [decText rs1.toNat, decText rs2.toNat, decText rd.toNat]
  | .xor rs1 rs2 rd => printLine .xor [decText rs1.toNat, decText rs2.toNat, decText rd.toNat]
  | .addi imm rs2 rd => printLine .addi [decText imm.toNat, decText rs2.toNat, decText rd.toNat]
  | .subi imm rs2 rd => printLine .subi [decText imm.toNat, decText rs2.toNat, decText rd.toNat]
  | .andi imm rs2 rd => printLine .andi [decText imm.toNat, decText rs2.toNat, decText rd.toNat]
  | .ori imm rs2 rd => printLine .ori [decText imm.toNat, decText rs2.toNat, decText rd.toNat]
  | .xori imm rs2 rd => printLine .xori [decText imm.toNat, decText rs2.toNat, decText rd.toNat]
  | .store r a => printLine .store [decText r.toNat, hexText a.toNat]
  | .load r a => printLine .load [decText r.toNat, hexText a.toNat]
  | .cmp rs1 rs2 => printLine .cmp [decText rs1.toNat, decText rs2.toNat]
  | .jmp t => printLine .jmp [decText t.toNat]
  | .jeq t => printLine .jeq [decText t.toNat]
  | .jne t => printLine .jne [decText t.toNat]
  | .jlt t => printLine .jlt [decText t.toNat]
  | .jgt t => printLine .jgt [decText t.toNat]
  | .jal t => printLine .jal [decText t.toNat]
  | .ret => printLine .ret []

/-- Disassembly of a word: `b0` selects the mnemonic through the opcode map, and the fields print in the order of the
syntax column (R136). DESIGN CHOICE (log entry 14): for a word that no row of R130 emits (an unknown opcode, or a
malformed word such as a `cmp` whose b3 is not 0) R136 is silent; the model prints nothing and answers the decode
error. -/
def disassemble (c : Config) (w : InstrWord) : Except DecodeError Text :=
  match decode c w with
  | .ok i => .ok (printInstr i)
  | .error e => .error e

end Sys2Proof.Machine
end

