-- ==== Sys2Proof/Machine/HostPort.lean ====
section
/-! DEFINITION. The host's interface of spec/00_scope.md R15 and R16: loading an image and starting from reset
(spec/70_reset_and_hazards.md R250, R251, R254), preloading registers, running, and reading a stopped machine
(R255, R256, spec/20_memory.md R77, spec/60_exceptions.md R230). None of it is a step of the core. -/

namespace Sys2Proof.Machine

open Sys2Proof

/-- The status right after reset (R251): Running when the image's length is a multiple of 4, else the ImageLength
fault with that length (R218). -/
def launchStatus (length : Nat) : Status :=
  if length % 4 = 0 then .running else .faulted (.imageLength length)

/-- Reset with a loaded image (R49, R250), under the parameters `c`, in the run that drew MEM_INIT number `draw`
(R63). -/
def launch (c : Config) (draw : Nat) (image : List Byte) : State where
  cfg := c
  regs := List.replicate c.numRegs 0
  pc := 0
  ras := []
  mem := []
  memDraw := draw
  image := image
  status := launchStatus image.length

/-- `LoadImage` (R15): an image longer than IMAGE_MAX_BYTES is refused and never starts a run (R251; decision D20);
none stands for the refusal. -/
def loadImage (c : Config) (draw : Nat) (image : List Byte) : Option State :=
  if image.length ≤ c.imageMaxBytes then some (launch c draw image) else none

/-- The test harness's preload of registers before `Run` (R16, R254; log entry 15), through the register write of
R11. -/
def preload (s : State) (values : List (RegIx × Nat)) : State :=
  values.foldl (fun t p => writeReg t p.1 (p.2 : Int)) s

/-- What a bounded run tells (R255, R256). -/
inductive Verdict where
  /-- the successful end: Halted, with the state the host reads -/
  | halted (s : State)
  /-- the failed end: Faulted, with its cause -/
  | faulted (c : FaultCause) (s : State)
  /-- the fuel ran out: no verdict, never an end of run (R256; decision D24) -/
  | noVerdict (s : State)
deriving DecidableEq, Repr

/-- At most `fuel` steps (R114: "It continues until `status ≠ Running`"). -/
def runFuel : Nat → State → Verdict
  | fuel, s =>
    match s.status with
    | .halted => .halted s
    | .faulted c => .faulted c s
    | .running =>
      match fuel with
      | 0 => .noVerdict s
      | n + 1 =>
        match step s with
        | .next t => runFuel n t
        | .fault _ => .noVerdict s
        | .refused _ => .noVerdict s

/-- The trace that at most `fuel` steps emit, first record first (R15, R230). -/
def traceFuel : Nat → State → List TraceRecord
  | 0, _ => []
  | n + 1, s =>
    match step s with
    | .next t => (traceRecord? s).toList ++ traceFuel n t
    | .fault _ => []
    | .refused _ => []

/-- `Status` (R15): what the host reads of the run-status latch. -/
def readStatus (s : State) : Status := s.status

/-- `ReadState` (R15, R231): after the run stops the host reads the state that survives; none while it runs. -/
def readState (s : State) : Option State :=
  match s.status with
  | .running => none
  | .halted => some s
  | .faulted _ => some s

/-- The dump of the register file (R230): x[0] .. x[N−1]. -/
def dumpRegs (s : State) : List Nat :=
  (List.range s.cfg.numRegs).map fun i => readReg s (BitVec.ofNat 8 i)

/-- The dump of the data memory bank (R77, R230): mem[0] .. mem[65535]. -/
def dumpMem (s : State) : List Nat :=
  (List.range 65536).map fun a => memRead s (BitVec.ofNat 16 a)

end Sys2Proof.Machine
end

