-- ==== Sys2Proof/Safety.lean ====
section
/-! DEFINITION. The terms in which statements about the machine are made: the machine's invariant, the states a run
can reach, the ends of a run (spec/70_reset_and_hazards.md R255), and what an instruction leaves unchanged. -/

namespace Sys2Proof.Safety

open Sys2Proof Sys2Proof.Machine

/-- Every register reads as before. -/
def SameRegs (s t : State) : Prop := ∀ i : RegIx, readReg t i = readReg s i

/-- Every data cell reads as before. -/
def SameMem (s t : State) : Prop := ∀ a : CellAddr, memRead t a = memRead s a

/-- What no instruction writes is as before: the image, the parameters and the MEM_INIT draw. -/
def SameFixed (s t : State) : Prop := t.image = s.image ∧ t.cfg = s.cfg ∧ t.memDraw = s.memDraw

/-- `t` is `s` after a straight-line instruction whose one effect is `x[rd] <- v` (R11, R113): register `rd` reads
`v`, but a hardwired r0 still reads 0 (R33); every other register, every cell of memory, the stack, the image, the
parameters and the status are as before, and the pc has advanced by 4. -/
def WroteReg (s t : State) (rd : RegIx) (v : Nat) : Prop :=
  readReg t rd = (if s.cfg.r0Hardwired = true ∧ rd = 0 then 0 else v) ∧
    (∀ i : RegIx, i ≠ rd → readReg t i = readReg s i) ∧
    SameMem s t ∧ t.ras = s.ras ∧ SameFixed s t ∧ t.pc = s.pc + 4 ∧ t.status = s.status

/-- `t` is `s` after a straight-line instruction whose one effect is `MemWrite(addr, v)`: the cell at `addr` reads
`v`, every other cell reads as before, and every register, the stack, the image, the parameters and the status are as
before; the pc has advanced by 4. -/
def WroteCell (s t : State) (addr : CellAddr) (v : Nat) : Prop :=
  memRead t addr = v ∧ (∀ a : CellAddr, a ≠ addr → memRead t a = memRead s a) ∧
    SameRegs s t ∧ t.ras = s.ras ∧ SameFixed s t ∧ t.pc = s.pc + 4 ∧ t.status = s.status

/-- `t` is `s` but for the pc, which is `p`: every register and cell reads as before, and the stack, the image, the
parameters and the status are as before. -/
def OnlyPc (s t : State) (p : PcWord) : Prop :=
  SameRegs s t ∧ SameMem s t ∧ t.ras = s.ras ∧ SameFixed s t ∧ t.pc = p ∧ t.status = s.status

/-- `t` is `s` after the fault entry of R215: only the status differs, and it holds the cause. -/
def FaultEntered (s t : State) (c : FaultCause) : Prop :=
  SameRegs s t ∧ SameMem s t ∧ t.ras = s.ras ∧ SameFixed s t ∧ t.pc = s.pc ∧ t.status = .faulted c

/-- The word decodes to the instruction when the instruction's fields are legal, and is malformed when they are not
(R108, R111). -/
def DecodesTo (c : Config) (w : InstrWord) (i : Instr) : Prop :=
  decode c w = if i.wf c = true then .ok i else .error .malformed

/-- The register bytes of a word of a given shape (the register rows of R95). -/
def RegBytes (w : InstrWord) : Shape → List RegIx
  | .rrr => [w.b1, w.b2, w.b3]
  | .irr => [w.b2, w.b3]
  | .ra => [w.b1]
  | .rr => [w.b1, w.b2]
  | .jumpTarget => []
  | .nullary => []

/-- R108 as it is written: (a) a Nullary word whose bytes differ; (b) a register field that holds a value ≥ N; (c) an
RR word whose last byte is not 0x00. -/
def MalformedWord (c : Config) (sh : Shape) (w : InstrWord) : Prop :=
  (sh = .nullary ∧ (w.b1 ≠ w.b0 ∨ w.b2 ≠ w.b0 ∨ w.b3 ≠ w.b0)) ∨
    (∃ r ∈ RegBytes w sh, c.numRegs ≤ r.toNat) ∨ (sh = .rr ∧ w.b3 ≠ 0)

/-- The word at the pc of a running machine can be fetched (R110): the pc is aligned and its word inside the image. -/
def CanFetch (s : State) : Prop :=
  s.status = .running ∧ s.pc.toNat % 4 = 0 ∧ s.pc.toNat + 4 ≤ s.image.length

/-- An entry of the return-address stack is the address of a word of the image (R187: "the address of an earlier
`jal`, so it is aligned and inside the image"). -/
def InImage (image : List Byte) (a : PcWord) : Prop := a.toNat % 4 = 0 ∧ a.toNat + 4 ≤ image.length

/-- The invariant of the machine: legal parameters (R7); N registers of W bits (R30, R31), a hardwired r0 holding 0
(R33); a stack of at most RAS_DEPTH entries, each the address of a word of the image, and empty in the small revision
(R45, R187, R3); memory in canonical form with cells of W bits at addresses below 65536 (R62); an image of at most
IMAGE_MAX_BYTES, of a length that is a multiple of 4 unless the run was never started (R61, R251). -/
structure Inv (s : State) : Prop where
  cfgWf : s.cfg.wf
  regCount : s.regs.length = s.cfg.numRegs
  regWidth : ∀ v ∈ s.regs, v < s.cfg.modulus
  zeroReg : s.cfg.r0Hardwired = true → s.regs.getD 0 0 = 0
  rasBound : s.ras.length ≤ s.cfg.rasDepth
  rasInImage : ∀ a ∈ s.ras, InImage s.image a
  rasSmall : s.cfg.revision = .small → s.ras = []
  memSorted : s.mem.wf
  memCells : ∀ p ∈ s.mem, p.1 < 65536 ∧ p.2 < s.cfg.modulus
  imageBound : s.image.length ≤ s.cfg.imageMaxBytes
  imageWords : s.image.length % 4 = 0 ∨ s.status = .faulted (.imageLength s.image.length)

/-- The states of the runs that start from a launch of a legal configuration with an image that LoadImage accepts and
a preload (R16, R250, R254). -/
inductive Reachable : State → Prop where
  | launched (c : Config) (draw : Nat) (image : List Byte) (values : List (RegIx × Nat)) (s : State) :
      c.wf → loadImage c draw image = some s → Reachable (preload s values)
  | stepped (s t : State) : Reachable s → step s = .next t → Reachable t

/-- The successful end of a run (R255). -/
def SuccessfulEnd (s : State) : Prop := s.status = .halted

/-- The failed end of a run (R255). -/
def FailedEnd (s : State) : Prop := ∃ c, s.status = .faulted c

/-- The machine has a step to take (R47). -/
def Running (s : State) : Prop := s.status = .running

/-- The straight-line class of R113, `halt` among it. -/
def StraightLine : Instr → Bool
  | .noop => true
  | .halt => true
  | .add _ _ _ => true
  | .sub _ _ _ => true
  | .and _ _ _ => true
  | .or _ _ _ => true
  | .xor _ _ _ => true
  | .addi _ _ _ => true
  | .subi _ _ _ => true
  | .andi _ _ _ => true
  | .ori _ _ _ => true
  | .xori _ _ _ => true
  | .store _ _ => true
  | .load _ _ => true
  | .cmp _ _ => true
  | .jmp _ => false
  | .jeq _ => false
  | .jne _ => false
  | .jlt _ => false
  | .jgt _ => false
  | .jal _ => false
  | .ret => false

/-- `i` is a control transfer to `target` that is taken in `s` (R113, R181 to R186): `jmp`, `jal` on a stack that is
not full, or a conditional jump whose condition on x[1] holds. -/
def TakenJump (s : State) (target : Target) (i : Instr) : Prop :=
  i = .jmp target ∨ (i = .jal target ∧ s.ras.length < s.cfg.rasDepth) ∨
    (i = .jeq target ∧ readReg s 1 = s.cfg.codes.eq) ∨ (i = .jne target ∧ readReg s 1 ≠ s.cfg.codes.eq) ∨
    (i = .jlt target ∧ readReg s 1 = s.cfg.codes.lt) ∨ (i = .jgt target ∧ readReg s 1 = s.cfg.codes.gt)

end Sys2Proof.Safety
end

