-- ==== Sys2Proof/Certificates/Slice0/Obligations.lean ====
section
/-! DEFINITION. The statements about BAC-CPU for the provers. "Rests on D<n>" names the spec's own decision
(spec/92_eei_decisions.md) that a statement formalises; such a statement is not taken from the source's words alone. -/

open Sys2Proof Sys2Proof.Machine Sys2Proof.Safety

/-! ### ALU instructions -/

/-- R141: `add` completes for all legal register fields: rd takes the sum mod 2^W, pc + 4, nothing else; its word is
`[OP_ADD, rs1, rs2, rd]`, malformed when a register byte is ≥ N. That `add` is the modular sum rests on D34 (log
entry 18, PRESUMED). -/
def Obligations.AddWritesSum : Prop :=
  ∀ (s : State) (rs1 rs2 rd : RegIx), Inv s →
    DecodesTo s.cfg ⟨s.cfg.opcodes.add, rs1, rs2, rd⟩ (.add rs1 rs2 rd) ∧
    ((Instr.add rs1 rs2 rd).wf s.cfg = true →
      ∃ t, exec (.add rs1 rs2 rd) s = .next t ∧
        WroteReg s t rd ((readReg s rs1 + readReg s rs2) % 2 ^ s.cfg.width))

/-- R142: `sub` completes: rd takes x[rs1] − x[rs2] mod 2^W, rs1 the minuend. Rests on D8; that
`sub` is modular subtraction rests on D34 (log entry 18, PRESUMED). -/
def Obligations.SubWritesDifference : Prop :=
  ∀ (s : State) (rs1 rs2 rd : RegIx), Inv s →
    DecodesTo s.cfg ⟨s.cfg.opcodes.sub, rs1, rs2, rd⟩ (.sub rs1 rs2 rd) ∧
    ((Instr.sub rs1 rs2 rd).wf s.cfg = true →
      ∃ t, exec (.sub rs1 rs2 rd) s = .next t ∧
        WroteReg s t rd (((readReg s rs1 : Int) - (readReg s rs2 : Int)) % (2 : Int) ^ s.cfg.width).toNat)

/-- R143: `and` completes: rd takes the bitwise AND, which the write does not shorten. That `and` is the
bitwise AND rests on D34 (log entry 18, PRESUMED). -/
def Obligations.AndWritesBitwiseAnd : Prop :=
  ∀ (s : State) (rs1 rs2 rd : RegIx), Inv s →
    DecodesTo s.cfg ⟨s.cfg.opcodes.and, rs1, rs2, rd⟩ (.and rs1 rs2 rd) ∧
    ((Instr.and rs1 rs2 rd).wf s.cfg = true →
      ∃ t, exec (.and rs1 rs2 rd) s = .next t ∧ WroteReg s t rd (readReg s rs1 &&& readReg s rs2))

/-- R144: `or` completes: rd takes the bitwise OR, which the write does not shorten. That `or` is the bitwise
OR rests on D34 (log entry 18, PRESUMED). -/
def Obligations.OrWritesBitwiseOr : Prop :=
  ∀ (s : State) (rs1 rs2 rd : RegIx), Inv s →
    DecodesTo s.cfg ⟨s.cfg.opcodes.or, rs1, rs2, rd⟩ (.or rs1 rs2 rd) ∧
    ((Instr.or rs1 rs2 rd).wf s.cfg = true →
      ∃ t, exec (.or rs1 rs2 rd) s = .next t ∧ WroteReg s t rd (readReg s rs1 ||| readReg s rs2))

/-- R145: `xor` completes: rd takes the bitwise exclusive OR, which the write does not shorten. That `xor` is
the bitwise exclusive OR rests on D34 (log entry 18, PRESUMED). -/
def Obligations.XorWritesBitwiseXor : Prop :=
  ∀ (s : State) (rs1 rs2 rd : RegIx), Inv s →
    DecodesTo s.cfg ⟨s.cfg.opcodes.xor, rs1, rs2, rd⟩ (.xor rs1 rs2 rd) ∧
    ((Instr.xor rs1 rs2 rd).wf s.cfg = true →
      ∃ t, exec (.xor rs1 rs2 rd) s = .next t ∧ WroteReg s t rd (readReg s rs1 ^^^ readReg s rs2))

/-- R146: `addi` completes for every immediate byte: rd takes imm + x[rs2] mod 2^W, imm zero-extended. Rests
on D9; the operation rests on D34 (log entry 18, PRESUMED). -/
def Obligations.AddiWritesSum : Prop :=
  ∀ (s : State) (imm : Byte) (rs2 rd : RegIx), Inv s →
    DecodesTo s.cfg ⟨s.cfg.opcodes.addi, imm, rs2, rd⟩ (.addi imm rs2 rd) ∧
    ((Instr.addi imm rs2 rd).wf s.cfg = true →
      ∃ t, exec (.addi imm rs2 rd) s = .next t ∧
        WroteReg s t rd ((imm.toNat + readReg s rs2) % 2 ^ s.cfg.width))

/-- R147: `subi` completes: rd takes imm − x[rs2] mod 2^W, the immediate the minuend. Rests on D8 and D9;
the operation rests on D34 (log entry 18, PRESUMED). -/
def Obligations.SubiWritesDifference : Prop :=
  ∀ (s : State) (imm : Byte) (rs2 rd : RegIx), Inv s →
    DecodesTo s.cfg ⟨s.cfg.opcodes.subi, imm, rs2, rd⟩ (.subi imm rs2 rd) ∧
    ((Instr.subi imm rs2 rd).wf s.cfg = true →
      ∃ t, exec (.subi imm rs2 rd) s = .next t ∧
        WroteReg s t rd (((imm.toNat : Int) - (readReg s rs2 : Int)) % (2 : Int) ^ s.cfg.width).toNat)

/-- R148: `andi` completes: rd takes imm AND x[rs2], whose bits from 8 on are 0. Rests on D9; the
operation rests on D34 (log entry 18, PRESUMED). -/
def Obligations.AndiWritesBitwiseAnd : Prop :=
  ∀ (s : State) (imm : Byte) (rs2 rd : RegIx), Inv s →
    DecodesTo s.cfg ⟨s.cfg.opcodes.andi, imm, rs2, rd⟩ (.andi imm rs2 rd) ∧
    imm.toNat &&& readReg s rs2 < 256 ∧
    ((Instr.andi imm rs2 rd).wf s.cfg = true →
      ∃ t, exec (.andi imm rs2 rd) s = .next t ∧ WroteReg s t rd (imm.toNat &&& readReg s rs2))

/-- R149: `ori` completes: rd takes imm OR x[rs2]; bits from 8 on pass through unchanged. Rests on D9;
the operation rests on D34 (log entry 18, PRESUMED). -/
def Obligations.OriWritesBitwiseOr : Prop :=
  ∀ (s : State) (imm : Byte) (rs2 rd : RegIx), Inv s →
    DecodesTo s.cfg ⟨s.cfg.opcodes.ori, imm, rs2, rd⟩ (.ori imm rs2 rd) ∧
    (imm.toNat ||| readReg s rs2) / 256 = readReg s rs2 / 256 ∧
    ((Instr.ori imm rs2 rd).wf s.cfg = true →
      ∃ t, exec (.ori imm rs2 rd) s = .next t ∧ WroteReg s t rd (imm.toNat ||| readReg s rs2))

/-- R150: `xori` completes: rd takes imm XOR x[rs2]; bits from 8 on pass through unchanged. Rests on
D9; the operation rests on D34 (log entry 18, PRESUMED). -/
def Obligations.XoriWritesBitwiseXor : Prop :=
  ∀ (s : State) (imm : Byte) (rs2 rd : RegIx), Inv s →
    DecodesTo s.cfg ⟨s.cfg.opcodes.xori, imm, rs2, rd⟩ (.xori imm rs2 rd) ∧
    (imm.toNat ^^^ readReg s rs2) / 256 = readReg s rs2 / 256 ∧
    ((Instr.xori imm rs2 rd).wf s.cfg = true →
      ∃ t, exec (.xori imm rs2 rd) s = .next t ∧ WroteReg s t rd (imm.toNat ^^^ readReg s rs2))

/-! ### Load, store, compare -/

/-- R160: `store` completes for every register and every address: the cell takes the whole register value, no other
cell, register or other state changes, pc + 4. Rests on D10 and D34 (log entry 18, PRESUMED). -/
def Obligations.StoreWritesCell : Prop :=
  ∀ (s : State) (r : RegIx) (addr : CellAddr), Inv s →
    DecodesTo s.cfg (raWord s.cfg.opcodes.store r addr) (.store r addr) ∧
    ((Instr.store r addr).wf s.cfg = true →
      ∃ t, exec (.store r addr) s = .next t ∧ WroteCell s t addr (readReg s r))

/-- R161: `load` completes for every register and every address: the register takes the cell's whole value; where no
store of the run and no earlier content gave the cell a value, that value is the cell's MEM_INIT, whatever it is.
Rests on D10, D11 and D34 (log entry 18, PRESUMED). -/
def Obligations.LoadReadsCell : Prop :=
  ∀ (s : State) (r : RegIx) (addr : CellAddr), Inv s →
    DecodesTo s.cfg (raWord s.cfg.opcodes.load r addr) (.load r addr) ∧
    (s.mem.lookup addr.toNat = none →
      memRead s addr = Config.memInit s.memDraw addr.toNat % 2 ^ s.cfg.width) ∧
    ((Instr.load r addr).wf s.cfg = true →
      ∃ t, exec (.load r addr) s = .next t ∧ WroteReg s t r (memRead s addr))

/-- R170, R171: `cmp` completes: r1 takes CODE_LT, CODE_GT or CODE_EQ by the unsigned comparison of the old values; a
word whose last byte is not 0 is malformed. Rests on D6, D7 and D16. -/
def Obligations.CmpWritesOutcome : Prop :=
  ∀ (s : State) (rs1 rs2 : RegIx) (b3 : Byte), Inv s →
    decode s.cfg ⟨s.cfg.opcodes.cmp, rs1, rs2, b3⟩ =
      (if b3 = 0 ∧ (Instr.cmp rs1 rs2).wf s.cfg = true then .ok (.cmp rs1 rs2) else .error .malformed) ∧
    ((Instr.cmp rs1 rs2).wf s.cfg = true →
      ∃ t, exec (.cmp rs1 rs2) s = .next t ∧
        WroteReg s t 1
          (if readReg s rs1 < readReg s rs2 then s.cfg.codes.lt
           else if readReg s rs1 > readReg s rs2 then s.cfg.codes.gt
           else s.cfg.codes.eq))

/-! ### Jumps, call and return -/

/-- R181: `jmp` completes with any target: the pc takes the zero-extended target and nothing else changes; no target
byte is checked. -/
def Obligations.JmpTakesTarget : Prop :=
  ∀ (s : State) (target : Target), Inv s →
    DecodesTo s.cfg (jumpWord s.cfg.opcodes.jmp target) (.jmp target) ∧
    ∃ t, exec (.jmp target) s = .next t ∧ OnlyPc s t (target.setWidth 32)

/-- R182: `jeq` completes: the target is taken iff x[1] = CODE_EQ, else pc + 4; only the pc changes. Rests on D6. -/
def Obligations.JeqTakenIffEqual : Prop :=
  ∀ (s : State) (target : Target), Inv s →
    DecodesTo s.cfg (jumpWord s.cfg.opcodes.jeq target) (.jeq target) ∧
    ∃ t, exec (.jeq target) s = .next t ∧
      OnlyPc s t (if readReg s 1 = s.cfg.codes.eq then target.setWidth 32 else s.pc + 4)

/-- R183: `jne` completes: the target is taken iff x[1] ≠ CODE_EQ, whatever else x[1] holds, else pc + 4; only the pc
changes. -/
def Obligations.JneTakenIffNotEqual : Prop :=
  ∀ (s : State) (target : Target), Inv s →
    DecodesTo s.cfg (jumpWord s.cfg.opcodes.jne target) (.jne target) ∧
    ∃ t, exec (.jne target) s = .next t ∧
      OnlyPc s t (if readReg s 1 ≠ s.cfg.codes.eq then target.setWidth 32 else s.pc + 4)

/-- R184: `jlt` completes: the target is taken iff x[1] = CODE_LT, else pc + 4; only the pc changes. -/
def Obligations.JltTakenIffLess : Prop :=
  ∀ (s : State) (target : Target), Inv s →
    DecodesTo s.cfg (jumpWord s.cfg.opcodes.jlt target) (.jlt target) ∧
    ∃ t, exec (.jlt target) s = .next t ∧
      OnlyPc s t (if readReg s 1 = s.cfg.codes.lt then target.setWidth 32 else s.pc + 4)

/-- R185: `jgt` completes: the target is taken iff x[1] = CODE_GT, else pc + 4; only the pc changes. -/
def Obligations.JgtTakenIffGreater : Prop :=
  ∀ (s : State) (target : Target), Inv s →
    DecodesTo s.cfg (jumpWord s.cfg.opcodes.jgt target) (.jgt target) ∧
    ∃ t, exec (.jgt target) s = .next t ∧
      OnlyPc s t (if readReg s 1 = s.cfg.codes.gt then target.setWidth 32 else s.pc + 4)

/-- R186: on a stack that is not full, `jal` completes: it pushes its OWN address, not pc + 4, and the pc takes the
target; no register, cell or other state changes. Its word is an instruction in the rich revision and an unknown
opcode in the small one (R107). Rests on D4 and D18. -/
def Obligations.JalPushesOwnAddress : Prop :=
  ∀ (s : State) (target : Target), Inv s →
    decode s.cfg (jumpWord s.cfg.opcodes.jal target) =
      (if s.cfg.revision = .rich then .ok (.jal target) else .error .unknownOpcode) ∧
    (s.ras.length < s.cfg.rasDepth →
      ∃ t, exec (.jal target) s = .next t ∧ SameRegs s t ∧ SameMem s t ∧ t.ras = s.pc :: s.ras ∧ SameFixed s t ∧
        t.pc = target.setWidth 32 ∧ t.status = s.status)

/-- R217: on a stack that holds RAS_DEPTH entries, `jal` takes the StackOverflow fault, code 7: nothing is pushed and
the pc is unchanged. Rests on D18; that only the status differs is R215, D17. -/
def Obligations.JalOnFullStackFaults : Prop :=
  ∀ (s : State) (target : Target), s.ras.length = s.cfg.rasDepth →
    ∃ t, exec (.jal target) s = .next t ∧ FaultEntered s t (.stackOverflow s.pc) ∧
      (FaultCause.stackOverflow s.pc).code = 7

/-- R187: on a stack with an entry, `ret` completes: the pc takes the popped address itself, not + 4, and the entry is
gone; no register, cell or other state changes. A word whose bytes differ is malformed; in the small revision the
opcode is unknown (R107). Rests on D4 and D16. -/
def Obligations.RetResumesAtPoppedAddress : Prop :=
  ∀ (s : State) (b1 b2 b3 : Byte), Inv s →
    decode s.cfg ⟨s.cfg.opcodes.ret, b1, b2, b3⟩ =
      (if s.cfg.revision = .small then .error .unknownOpcode
       else if b1 = s.cfg.opcodes.ret ∧ b2 = s.cfg.opcodes.ret ∧ b3 = s.cfg.opcodes.ret then .ok .ret
       else .error .malformed) ∧
    ∀ (a : PcWord) (l : List PcWord), s.ras = a :: l →
      ∃ t, exec .ret s = .next t ∧ SameRegs s t ∧ SameMem s t ∧ t.ras = l ∧ SameFixed s t ∧ t.pc = a ∧
        t.status = s.status

/-- R216: `ret` on an empty stack takes the StackUnderflow fault, code 6, a RuntimeStackError: no register and no
memory cell is mutated. That the pc and the stack stay as well is R215 and rests on D17. -/
def Obligations.RetOnEmptyStackFaults : Prop :=
  ∀ s : State, s.ras = [] →
    ∃ t, exec .ret s = .next t ∧ FaultEntered s t (.stackUnderflow s.pc) ∧
      (FaultCause.stackUnderflow s.pc).code = 6 ∧
      (FaultCause.stackUnderflow s.pc).sourceClass = some .runtimeStackError

/-- R188: `ret` after a `jal` is back at that `jal` with the stack as it was: the pair does not return to the
instruction after the call. -/
def Obligations.CallThenReturnIsBackAtTheCall : Prop :=
  ∀ (s t u : State) (target : Target), s.ras.length < s.cfg.rasDepth →
    exec (.jal target) s = .next t → exec .ret t = .next u → OnlyPc s u s.pc

/-! ### System instructions -/

/-- R200: `halt` completes: pc + 4, status Halted, every register, cell and stack entry as it was, and no step after
it; a word whose bytes differ is malformed. -/
def Obligations.HaltStopsTheRun : Prop :=
  ∀ (s : State) (b1 b2 b3 : Byte), Inv s →
    decode s.cfg ⟨s.cfg.opcodes.halt, b1, b2, b3⟩ =
      (if b1 = s.cfg.opcodes.halt ∧ b2 = s.cfg.opcodes.halt ∧ b3 = s.cfg.opcodes.halt then .ok .halt
       else .error .malformed) ∧
    ∃ t, exec .halt s = .next t ∧ SameRegs s t ∧ SameMem s t ∧ t.ras = s.ras ∧ SameFixed s t ∧ t.pc = s.pc + 4 ∧
      t.status = .halted ∧ ∀ u, step t ≠ .next u

/-- R201: `noop` completes: pc + 4 and nothing else; a word whose bytes differ is malformed. -/
def Obligations.NoopOnlyAdvances : Prop :=
  ∀ (s : State) (b1 b2 b3 : Byte), Inv s →
    decode s.cfg ⟨s.cfg.opcodes.noop, b1, b2, b3⟩ =
      (if b1 = s.cfg.opcodes.noop ∧ b2 = s.cfg.opcodes.noop ∧ b3 = s.cfg.opcodes.noop then .ok .noop
       else .error .malformed) ∧
    ∃ t, exec .noop s = .next t ∧ OnlyPc s t (s.pc + 4)

/-! ### Faults -/

/-- R211, R212: a step at a pc that is no multiple of 4 takes MisalignedFetch, code 2, whatever the image is; a step
at an aligned pc whose word is not inside the image takes FetchOutOfRange, code 3. Rests on D13, D14 and D22; that
only the status differs is R215, D17. -/
def Obligations.FetchFaultsAreTaken : Prop :=
  ∀ s : State, s.status = .running →
    (s.pc.toNat % 4 ≠ 0 →
      ∃ t, step s = .next t ∧ FaultEntered s t (.misalignedFetch s.pc) ∧
        (FaultCause.misalignedFetch s.pc).code = 2) ∧
    (s.pc.toNat % 4 = 0 → s.pc.toNat + 4 > s.image.length →
      ∃ t, step s = .next t ∧ FaultEntered s t (.fetchOutOfRange s.pc) ∧
        (FaultCause.fetchOutOfRange s.pc).code = 3)

/-- R213: where the word can be fetched and its b0 matches no OP_<mnemonic> of the configured revision, the step takes
UnknownOpcode, code 4, a RuntimeOpcodeError, with the pc and the word recorded. That only the status differs is R215
and rests on D17. -/
def Obligations.UnknownOpcodeFaults : Prop :=
  ∀ s : State, CanFetch s →
    (∀ m : Mnemonic, s.cfg.has m = true → s.cfg.opcodes.opOf m ≠ (imageWord s.image s.pc.toNat).b0) →
    ∃ t, step s = .next t ∧
      FaultEntered s t (.unknownOpcode s.pc (imageWord s.image s.pc.toNat)) ∧
      (FaultCause.unknownOpcode s.pc (imageWord s.image s.pc.toNat)).code = 4 ∧
      (FaultCause.unknownOpcode s.pc (imageWord s.image s.pc.toNat)).sourceClass = some .runtimeOpcodeError

/-- R214, R108: where the word can be fetched, its opcode is a mnemonic's of the revision and the word breaks R108 for
that mnemonic's shape, the step takes Malformed, code 5, with the pc and the word recorded. Rests on D15 and D16; that only
the status differs is R215, D17. -/
def Obligations.MalformedWordFaults : Prop :=
  ∀ (s : State) (m : Mnemonic), s.cfg.wf → CanFetch s →
    s.cfg.has m = true → s.cfg.opcodes.opOf m = (imageWord s.image s.pc.toNat).b0 →
    MalformedWord s.cfg m.shape (imageWord s.image s.pc.toNat) →
    ∃ t, step s = .next t ∧
      FaultEntered s t (.malformed s.pc (imageWord s.image s.pc.toNat)) ∧
      (FaultCause.malformed s.pc (imageWord s.image s.pc.toNat)).code = 5 ∧
      (FaultCause.malformed s.pc (imageWord s.image s.pc.toNat)).sourceClass = some .runtimeOpcodeError

/-- R215, R222: whatever fault a step takes, everything but the status is as before the step, and no step follows.
Rests on D17. -/
def Obligations.FaultsArePreciseAndTerminal : Prop :=
  ∀ (s t : State) (c : FaultCause), step s = .next t → t.status = .faulted c →
    FaultEntered s t c ∧ ∀ u, step t ≠ .next u

/-- R191: every taken transfer to a target that is no multiple of 4 completes with its whole effect (the pc takes the
target; a `jal` has pushed its own address), and the step after it takes MisalignedFetch with pc = target. Rests on
D14, D17 and D18. -/
def Obligations.MisalignedTargetFaultsAtNextFetch : Prop :=
  ∀ (s : State) (i : Instr) (target : Target), s.status = .running → target.toNat % 4 ≠ 0 → TakenJump s target i →
    ∃ t u, exec i s = .next t ∧ t.pc = target.setWidth 32 ∧ t.status = .running ∧ SameRegs s t ∧ SameMem s t ∧
      SameFixed s t ∧ (i = .jal target → t.ras = s.pc :: s.ras) ∧ (i ≠ .jal target → t.ras = s.ras) ∧
      step t = .next u ∧ FaultEntered t u (.misalignedFetch (target.setWidth 32))

/-- R187: a `ret` that pops never leads to a fetch fault: the word at the popped address can be fetched. -/
def Obligations.ReturnTargetCanBeFetched : Prop :=
  ∀ s t : State, Inv s → s.status = .running → s.ras ≠ [] → exec .ret s = .next t → CanFetch t

/-! ### The machine as a whole -/

/-- R114: when the word at the pc can be fetched and decodes to a well-formed instruction, the step is `exec` of that
instruction at that very state. -/
def Obligations.StepRunsTheDecodedInstruction : Prop :=
  ∀ (s : State) (i : Instr), CanFetch s → decode s.cfg (imageWord s.image s.pc.toNat) = .ok i →
    step s = exec i s

/-- R109, R114: a running machine always has a next state: no word, operand or data value stops it without one. -/
def Obligations.RunningMachineAlwaysSteps : Prop :=
  ∀ s : State, s.status = .running → ∃ t, step s = .next t

/-- R203, R255: the status becomes Halted only by a step that fetched and ran `halt`. -/
def Obligations.OnlyHaltHalts : Prop :=
  ∀ s t : State, step s = .next t → t.status = .halted → CanFetch s ∧ fetchDecode s = .ok .halt

/-- R64: an instruction that changes what some cell reads is a `store`, and the cell is the one at its absolute
address. Rests on D12 and D34 (log entries 16 and 18). -/
def Obligations.OnlyStoreChangesMemory : Prop :=
  ∀ (i : Instr) (s t : State) (a : CellAddr), exec i s = .next t → memRead t a ≠ memRead s a →
    ∃ r, i = .store r a

/-- R64: an instruction other than `load` does the same whatever the data memory holds: the same registers, pc, stack
and status; the cell that a `store` writes reads the same, and so does every cell that read the same before. Rests on
D12 and D34 (log entries 16 and 18). -/
def Obligations.OnlyLoadReadsMemory : Prop :=
  ∀ (i : Instr) (s t s' : State), (∀ r a, i ≠ .load r a) →
    s' = { s with mem := s'.mem, memDraw := s'.memDraw } → exec i s = .next t →
    ∃ t', exec i s' = .next t' ∧
      t'.regs = t.regs ∧ t'.pc = t.pc ∧ t'.ras = t.ras ∧ t'.status = t.status ∧
      (∀ r a, i = .store r a → memRead t' a = memRead t a) ∧
      ∀ a : CellAddr, memRead s' a = memRead s a → memRead t' a = memRead t a

/-- R45: an instruction that changes the return-address stack is `jal`, which pushes one entry, or `ret`, which pops
one. Rests on D18. -/
def Obligations.OnlyCallAndReturnTouchTheStack : Prop :=
  ∀ (i : Instr) (s t : State), exec i s = .next t → t.ras ≠ s.ras →
    (∃ target, i = .jal target ∧ t.ras = s.pc :: s.ras) ∨ (i = .ret ∧ ∃ a, s.ras = a :: t.ras)

/-- R112: no instruction changes more than one register. -/
def Obligations.AtMostOneRegisterChanges : Prop :=
  ∀ (i : Instr) (s t : State), exec i s = .next t → ∃ r : RegIx, ∀ j : RegIx, j ≠ r → readReg t j = readReg s j

/-- R61, R75: no step changes the image, so no sequence of instructions changes a word that a later fetch reads; the
parameters and the MEM_INIT draw stay as well. Rests on D12. -/
def Obligations.ImageAndParametersNeverChange : Prop :=
  ∀ s t : State, step s = .next t → SameFixed s t

/-- R42: straight-line instructions go to pc + 4; taken transfers go to the target with no increment; a conditional
jump that is not taken goes to pc + 4. (A `jal` on a full stack and a `ret` on an empty one take a fault instead.) -/
def Obligations.NextPcRule : Prop :=
  ∀ s t : State,
    (∀ i, StraightLine i = true → exec i s = .next t → t.pc = s.pc + 4) ∧
    (∀ target, exec (.jmp target) s = .next t → t.pc = target.setWidth 32) ∧
    (∀ target, exec (.jal target) s = .next t → s.ras.length < s.cfg.rasDepth → t.pc = target.setWidth 32) ∧
    (∀ a l, exec .ret s = .next t → s.ras = a :: l → t.pc = a) ∧
    (∀ target, exec (.jeq target) s = .next t →
      t.pc = if readReg s 1 = s.cfg.codes.eq then target.setWidth 32 else s.pc + 4) ∧
    (∀ target, exec (.jne target) s = .next t →
      t.pc = if readReg s 1 = s.cfg.codes.eq then s.pc + 4 else target.setWidth 32) ∧
    (∀ target, exec (.jlt target) s = .next t →
      t.pc = if readReg s 1 = s.cfg.codes.lt then target.setWidth 32 else s.pc + 4) ∧
    (∀ target, exec (.jgt target) s = .next t →
      t.pc = if readReg s 1 = s.cfg.codes.gt then target.setWidth 32 else s.pc + 4)

/-- R173, R37: after a `cmp`, r1 is never CODE_NE, exactly one of `jeq`, `jlt` and `jgt` takes its target, the one
that the unsigned order of the old values names, and `jne` takes its target iff `jeq` does not. The target is one that
differs from pc + 4, so that taken can be told from not taken. Rests on D6 and D7. -/
def Obligations.BranchesAfterCompare : Prop :=
  ∀ (s t : State) (rs1 rs2 : RegIx) (target : Target), Inv s → (Instr.cmp rs1 rs2).wf s.cfg = true →
    exec (.cmp rs1 rs2) s = .next t → target.setWidth 32 ≠ t.pc + 4 →
    readReg t 1 ≠ s.cfg.codes.ne ∧
    ∃ e l g n, exec (.jeq target) t = .next e ∧ exec (.jlt target) t = .next l ∧ exec (.jgt target) t = .next g ∧
      exec (.jne target) t = .next n ∧
      (e.pc = target.setWidth 32 ↔ readReg s rs1 = readReg s rs2) ∧
      (l.pc = target.setWidth 32 ↔ readReg s rs1 < readReg s rs2) ∧
      (g.pc = target.setWidth 32 ↔ readReg s rs2 < readReg s rs1) ∧
      (n.pc = target.setWidth 32 ↔ e.pc ≠ target.setWidth 32)

/-- R73, R258: a `load` right after a `store` of the same cell gives the stored value, with no delay; a `load` of
another cell gives what that cell held before the store. Rests on D10 and D34 (log entry 18, PRESUMED). -/
def Obligations.LoadAfterStore : Prop :=
  ∀ (s t : State) (r q : RegIx) (a b : CellAddr), Inv s →
    (Instr.store r a).wf s.cfg = true → (Instr.load q b).wf s.cfg = true → exec (.store r a) s = .next t →
    ∃ u, exec (.load q b) t = .next u ∧ WroteReg t u q (if b = a then readReg s r else memRead s b)

/-- R33: where R0_HARDWIRED holds, r0 reads 0 in every state and a write to it changes no state at all; where it does
not, r0 holds what is written. Rests on D5. -/
def Obligations.ZeroRegisterFollowsItsParameter : Prop :=
  ∀ (s : State) (v : Int),
    (s.cfg.r0Hardwired = true → readReg s 0 = 0 ∧ writeReg s 0 v = s) ∧
    (s.cfg.r0Hardwired = false → 0 < s.regs.length →
      (readReg (writeReg s 0 v) 0 : Int) = v % (2 : Int) ^ s.cfg.width)

/-- R31: a register write keeps the value mod 2^W, which a read then gives unchanged, and leaves every other register
as it was. (A hardwired r0 is left to ZeroRegisterFollowsItsParameter.) -/
def Obligations.RegisterWriteTruncates : Prop :=
  ∀ (s : State) (i : RegIx) (v : Int), i.toNat < s.regs.length → (i = 0 → s.cfg.r0Hardwired = false) →
    (readReg (writeReg s i v) i : Int) = v % (2 : Int) ^ s.cfg.width ∧
    ∀ j : RegIx, j ≠ i → readReg (writeReg s i v) j = readReg s j

/-- R110, R230: a step emits a trace record exactly when the word at the pc can be fetched; the record holds the pc
and the four bytes, whether they decode or not. Rests on D28. -/
def Obligations.TraceRecordPerFetch : Prop :=
  ∀ s : State,
    (CanFetch s → traceRecord? s = some ⟨s.pc, imageWord s.image s.pc.toNat⟩) ∧
    (¬ CanFetch s → traceRecord? s = none)

/-! ### Reset and the invariant -/

/-- R49, R250, R251, R252: LoadImage refuses exactly the images longer than IMAGE_MAX_BYTES; an accepted image starts
with every register 0, pc 0, an empty stack, every data cell at its MEM_INIT value and the image as given; the status
is Running when its length is a multiple of 4, else Faulted(ImageLength), code 1, and then no step runs. Rests on
D11, D20 and D23. -/
def Obligations.LaunchGivesTheResetState : Prop :=
  ∀ (c : Config) (draw : Nat) (image : List Byte),
    (loadImage c draw image = none ↔ image.length > c.imageMaxBytes) ∧
    ∀ s, loadImage c draw image = some s →
      s.regs.length = c.numRegs ∧ (∀ i : RegIx, readReg s i = 0) ∧ s.pc = 0 ∧ s.ras = [] ∧
      (∀ a : CellAddr, memRead s a = Config.memInit draw a.toNat % 2 ^ c.width) ∧ s.image = image ∧ s.cfg = c ∧
      (image.length % 4 = 0 → s.status = .running) ∧
      (image.length % 4 ≠ 0 → s.status = .faulted (.imageLength image.length) ∧
        (FaultCause.imageLength image.length).code = 1 ∧ ∀ t, step s ≠ .next t)

/-- `State.reset` meets the invariant. -/
def Obligations.ResetMeetsTheInvariant : Prop := Inv State.reset

/-- Every launch of a legal configuration with an accepted image meets the invariant, whatever registers are
preloaded. -/
def Obligations.LaunchMeetsTheInvariant : Prop :=
  ∀ (c : Config) (draw : Nat) (image : List Byte) (values : List (RegIx × Nat)) (s : State),
    c.wf → loadImage c draw image = some s → Inv (preload s values)

/-- Every step keeps the invariant: registers and cells stay below 2^W, a hardwired r0 stays 0, the stack stays within
RAS_DEPTH and holds only addresses of image words, memory stays in canonical form (R31, R33, R45, R62, R187). -/
def Obligations.StepKeepsTheInvariant : Prop :=
  ∀ s t : State, Inv s → step s = .next t → Inv t

/-- Every reachable state meets the invariant. -/
def Obligations.ReachableStatesMeetTheInvariant : Prop :=
  ∀ s : State, Reachable s → Inv s

/-- R256: more fuel never changes a verdict: a run that ended with some fuel ends the same with more. -/
def Obligations.MoreFuelKeepsTheVerdict : Prop :=
  ∀ (n k : Nat) (s : State), (∀ u, runFuel n s ≠ .noVerdict u) → runFuel (n + k) s = runFuel n s

/-! ### Encoding -/

/-- Decoding the encoded word of any well-formed instruction gives the instruction back, under every legal choice of
parameters and with every operand at every value the encoding admits. -/
def Obligations.DecodeOfEncode : Prop :=
  ∀ (c : Config) (i : Instr), c.wf → i.wf c = true → decode c (encode c i) = .ok i

/-- A word that decodes is the encoded word of the instruction it decodes to, which is well formed: each instruction
has one word (R109). -/
def Obligations.EncodeOfDecode : Prop :=
  ∀ (c : Config) (w : InstrWord) (i : Instr), decode c w = .ok i → encode c i = w ∧ i.wf c = true

/-- R107, R108, R109: a word is an unknown opcode exactly when its b0 is no mnemonic's of the revision; with the
opcode of a mnemonic it is malformed exactly when it breaks R108, and is that mnemonic's instruction otherwise. Rests
on D15 and D16. -/
def Obligations.DecodePartitionsAllWords : Prop :=
  ∀ (c : Config) (w : InstrWord), c.wf →
    (decode c w = .error .unknownOpcode ↔ ∀ m : Mnemonic, c.has m = true → c.opcodes.opOf m ≠ w.b0) ∧
    ∀ m : Mnemonic, c.has m = true → c.opcodes.opOf m = w.b0 →
      (decode c w = .error .malformed ↔ MalformedWord c m.shape w) ∧
      (¬ MalformedWord c m.shape w → ∃ i, decode c w = .ok i ∧ i.mnemonic = m)

/-- Words written out byte by byte from R93 under the reference opcodes of R101 decode to the instructions they stand
for, one or more of each shape. -/
def Obligations.ReferenceWordsDecode : Prop :=
  decodeTableWord 32 0x02010203 = some (.add 1 2 3) ∧
  decodeTableWord 32 0x080A0203 = some (.subi 10 2 3) ∧
  decodeTableWord 32 0x0C02BEEF = some (.store 2 0xBEEF) ∧
  decodeTableWord 32 0x0D051234 = some (.load 5 0x1234) ∧
  decodeTableWord 32 0x0E020300 = some (.cmp 2 3) ∧
  decodeTableWord 32 0x0F010204 = some (.jmp 66052) ∧
  decodeTableWord 32 0x14000008 = some (.jal 8) ∧
  decodeTableWord 32 0x15151515 = some .ret ∧
  decodeTableWord 32 0x01010101 = some .halt ∧
  decodeTableWord 32 0x01010100 = none ∧
  decodeTableWord 32 0x16161616 = none ∧
  decodeTableWord 32 0x02100203 = none

/-- A word placed where the next step fetches is the one that step runs, from every state under the reference
parameters (log entry 8). -/
def Obligations.PlacedWordRuns : Prop :=
  ∀ (s : State) (w : Nat) (i : Instr), s.cfg = referenceConfig → decodeTableWord 32 w = some i →
    step (s.withFetchWord 32 w) = exec i (s.withFetchWord 32 w)

/-! ### The assembler -/

/-- R121, R123, R133: an image has 4 bytes for each source line, and an empty or a label line is the padding word at
4 times its line index. -/
def Obligations.AssembledLinesArePlaced : Prop :=
  ∀ (c : Config) (source : Text) (image : List Byte) (tab : SymbolTable),
    assemble c source = .ok (image, tab) →
    image.length = 4 * (splitLines source).length ∧
    ∀ (k : Nat) (l : Text), (splitLines source)[k]? = some l →
      (lineForm l = .empty ∨ ∃ name, lineForm l = .label name) → imageWord image (4 * k) = paddingWord c

/-- R122: the symbol table of an assembled source gives each name once, and gives a name the address a exactly when
the source line of index a / 4 declares it. -/
def Obligations.LabelsAreLineAddresses : Prop :=
  ∀ (c : Config) (source : Text) (image : List Byte) (tab : SymbolTable),
    assemble c source = .ok (image, tab) →
    (tab.map Prod.fst).Nodup ∧
    ∀ (name : Text) (a : Nat), (name, a) ∈ tab ↔
      ∃ (k : Nat) (l : Text), (splitLines source)[k]? = some l ∧ lineForm l = .label name ∧ a = k * 4

/-- R135: every word of an assembled image decodes to an instruction: the assembler emits no unknown opcode, no
malformed word and no register index out of range. -/
def Obligations.AssembledWordsDecode : Prop :=
  ∀ (c : Config) (source : Text) (image : List Byte) (tab : SymbolTable), c.wf →
    assemble c source = .ok (image, tab) →
    ∀ k : Nat, k < (splitLines source).length → ∃ i, decode c (imageWord image (4 * k)) = .ok i ∧ i.wf c = true

/-- R136, R130: the disassembly of the word of a well-formed instruction assembles to exactly that word. How the
operands are printed is the model's choice (log entry 14). -/
def Obligations.DisassemblyAssemblesBack : Prop :=
  ∀ (c : Config) (i : Instr), c.wf → i.wf c = true →
    ∃ text, disassemble c (encode c i) = .ok text ∧ assemble c text = .ok ((encode c i).bytes, [])
end

