-- ==== Sys2Proof/Laws/Decode.lean ====
section
/-! SUPPORT. The opcode lookup and the fields of an encoded word. -/

namespace Sys2Proof.Laws

open Sys2Proof

/-- Every mnemonic is in the table (R101). -/
theorem mem_all (m : Mnemonic) : m ∈ Mnemonic.all := by cases m <;> decide

/-- What a lookup finds is a mnemonic of the revision that owns the byte. -/
theorem opLookup_some {c : Config} {b : Byte} {m : Mnemonic} (h : c.opLookup b = some m) :
    c.has m = true ∧ c.opcodes.opOf m = b := by
  have := List.find?_some h
  simpa using this

/-- Two mnemonics with one opcode byte are one mnemonic (R92). -/
theorem opOf_injective {c : Config} (hc : c.wf) {m n : Mnemonic} (h : c.opcodes.opOf m = c.opcodes.opOf n) :
    m = n :=
  List.inj_on_of_nodup_map hc.2.2.1 (mem_all m) (mem_all n) h

/-- A mnemonic of the revision is found under its own byte (R92). -/
theorem opLookup_opOf {c : Config} (hc : c.wf) {m : Mnemonic} (hm : c.has m = true) :
    c.opLookup (c.opcodes.opOf m) = some m := by
  cases h : c.opLookup (c.opcodes.opOf m) with
  | some n => exact congrArg some (opOf_injective hc (opLookup_some h).2)
  | none =>
    have := List.find?_eq_none.1 h m (mem_all m)
    simp [hm] at this

/-- No mnemonic of the revision owns the byte exactly when the lookup finds none (R107). -/
theorem opLookup_none {c : Config} {b : Byte} :
    c.opLookup b = none ↔ ∀ m : Mnemonic, c.has m = true → c.opcodes.opOf m ≠ b := by
  constructor
  · intro h m hm he
    have := List.find?_eq_none.1 h m (mem_all m)
    simp [hm, he] at this
  · intro h
    refine List.find?_eq_none.2 fun m _ => ?_
    simpa using fun hm => h m hm

/-- The address bytes of an RA word give its address back (R97). -/
theorem raWord_addr (b : Byte) (r : RegIx) (a : CellAddr) : (raWord b r a).addr = a := by
  apply BitVec.eq_of_getLsbD_eq
  intro i hi
  by_cases h : i < 8
  · simp [raWord, InstrWord.addr, h, hi]
  · simp [raWord, InstrWord.addr, h, hi, show 8 + (i - 8) = i by omega, show i - 8 < 8 by omega]

/-- The target bytes of a JumpTarget word give its target back (R99). -/
theorem jumpWord_target (b : Byte) (t : Target) : (jumpWord b t).target = t := by
  apply BitVec.eq_of_getLsbD_eq
  intro i hi
  by_cases h : i < 8
  · simp [jumpWord, InstrWord.target, h, hi, show i < 16 by omega]
  · by_cases h' : i < 16
    · simp [jumpWord, InstrWord.target, h, h', hi, show 8 + (i - 8) = i by omega, show i - 8 < 8 by omega]
    · simp [jumpWord, InstrWord.target, h, h', hi, show 16 + (i - 16) = i by omega, show i - 16 < 8 by omega,
        show ¬ i - 8 < 8 by omega]

/-- A word is the RA word of its own fields (R97). -/
theorem raWord_of_fields (w : InstrWord) : raWord w.b0 w.b1 w.addr = w := by
  cases w
  simp only [raWord, InstrWord.addr, InstrWord.mk.injEq, true_and]
  constructor <;> (apply BitVec.eq_of_getLsbD_eq; intro i hi)
  · simp [hi, show 8 + i < 16 by omega]
  · simp [hi, show i < 16 by omega]

/-- A word is the JumpTarget word of its own fields (R99). -/
theorem jumpWord_of_fields (w : InstrWord) : jumpWord w.b0 w.target = w := by
  cases w
  simp only [jumpWord, InstrWord.target, InstrWord.mk.injEq, true_and]
  refine ⟨?_, ?_, ?_⟩ <;> (apply BitVec.eq_of_getLsbD_eq; intro i hi)
  · simp [hi, show 16 + i < 24 by omega, show ¬ 16 + i < 8 by omega,
      BitVec.getLsbD_of_ge (w := 8) _ (16 + i - 8) (by omega), BitVec.getLsbD_of_ge (w := 8) _ (16 + i) (by omega)]
  · simp [hi, show 8 + i < 24 by omega, show 8 + i < 16 by omega]
  · simp [hi, show i < 16 by omega, show i < 24 by omega]

end Sys2Proof.Laws
end

