-- ==== Sys2Proof/Laws/State.lean ====
section
/-! SUPPORT. What each update of the state leaves in each field: one lemma per field per update, each true by rfl. -/

namespace Sys2Proof.Laws

open Sys2Proof Sys2Proof.Machine

variable (s : State)

/-! ### writeReg -/

@[simp] theorem writeReg_cfg (i : RegIx) (v : Int) : (writeReg s i v).cfg = s.cfg := rfl
theorem writeReg_regs (i : RegIx) (v : Int) : (writeReg s i v).regs = if hardwired s i then s.regs else s.regs.set i.toNat (v % (s.cfg.modulus : Int)).toNat := rfl
@[simp] theorem writeReg_pc (i : RegIx) (v : Int) : (writeReg s i v).pc = s.pc := rfl
@[simp] theorem writeReg_ras (i : RegIx) (v : Int) : (writeReg s i v).ras = s.ras := rfl
@[simp] theorem writeReg_mem (i : RegIx) (v : Int) : (writeReg s i v).mem = s.mem := rfl
@[simp] theorem writeReg_memDraw (i : RegIx) (v : Int) : (writeReg s i v).memDraw = s.memDraw := rfl
@[simp] theorem writeReg_image (i : RegIx) (v : Int) : (writeReg s i v).image = s.image := rfl
@[simp] theorem writeReg_status (i : RegIx) (v : Int) : (writeReg s i v).status = s.status := rfl

/-! ### memWrite -/

@[simp] theorem memWrite_cfg (a : CellAddr) (v : Nat) : (memWrite s a v).cfg = s.cfg := rfl
@[simp] theorem memWrite_regs (a : CellAddr) (v : Nat) : (memWrite s a v).regs = s.regs := rfl
@[simp] theorem memWrite_pc (a : CellAddr) (v : Nat) : (memWrite s a v).pc = s.pc := rfl
@[simp] theorem memWrite_ras (a : CellAddr) (v : Nat) : (memWrite s a v).ras = s.ras := rfl
@[simp] theorem memWrite_mem (a : CellAddr) (v : Nat) : (memWrite s a v).mem = s.mem.insert a.toNat v := rfl
@[simp] theorem memWrite_memDraw (a : CellAddr) (v : Nat) : (memWrite s a v).memDraw = s.memDraw := rfl
@[simp] theorem memWrite_image (a : CellAddr) (v : Nat) : (memWrite s a v).image = s.image := rfl
@[simp] theorem memWrite_status (a : CellAddr) (v : Nat) : (memWrite s a v).status = s.status := rfl

/-! ### setPc -/

@[simp] theorem setPc_cfg (t : PcWord) : (setPc s t).cfg = s.cfg := rfl
@[simp] theorem setPc_regs (t : PcWord) : (setPc s t).regs = s.regs := rfl
@[simp] theorem setPc_pc (t : PcWord) : (setPc s t).pc = t := rfl
@[simp] theorem setPc_ras (t : PcWord) : (setPc s t).ras = s.ras := rfl
@[simp] theorem setPc_mem (t : PcWord) : (setPc s t).mem = s.mem := rfl
@[simp] theorem setPc_memDraw (t : PcWord) : (setPc s t).memDraw = s.memDraw := rfl
@[simp] theorem setPc_image (t : PcWord) : (setPc s t).image = s.image := rfl
@[simp] theorem setPc_status (t : PcWord) : (setPc s t).status = s.status := rfl

/-! ### advance -/

@[simp] theorem advance_cfg : (advance s).cfg = s.cfg := rfl
@[simp] theorem advance_regs : (advance s).regs = s.regs := rfl
@[simp] theorem advance_pc : (advance s).pc = s.pc + 4 := rfl
@[simp] theorem advance_ras : (advance s).ras = s.ras := rfl
@[simp] theorem advance_mem : (advance s).mem = s.mem := rfl
@[simp] theorem advance_memDraw : (advance s).memDraw = s.memDraw := rfl
@[simp] theorem advance_image : (advance s).image = s.image := rfl
@[simp] theorem advance_status : (advance s).status = s.status := rfl

/-! ### push -/

@[simp] theorem push_cfg (v : PcWord) : (push s v).cfg = s.cfg := rfl
@[simp] theorem push_regs (v : PcWord) : (push s v).regs = s.regs := rfl
@[simp] theorem push_pc (v : PcWord) : (push s v).pc = s.pc := rfl
@[simp] theorem push_ras (v : PcWord) : (push s v).ras = v :: s.ras := rfl
@[simp] theorem push_mem (v : PcWord) : (push s v).mem = s.mem := rfl
@[simp] theorem push_memDraw (v : PcWord) : (push s v).memDraw = s.memDraw := rfl
@[simp] theorem push_image (v : PcWord) : (push s v).image = s.image := rfl
@[simp] theorem push_status (v : PcWord) : (push s v).status = s.status := rfl

/-! ### dropTop -/

@[simp] theorem dropTop_cfg : (dropTop s).cfg = s.cfg := rfl
@[simp] theorem dropTop_regs : (dropTop s).regs = s.regs := rfl
@[simp] theorem dropTop_pc : (dropTop s).pc = s.pc := rfl
@[simp] theorem dropTop_ras : (dropTop s).ras = s.ras.tail := rfl
@[simp] theorem dropTop_mem : (dropTop s).mem = s.mem := rfl
@[simp] theorem dropTop_memDraw : (dropTop s).memDraw = s.memDraw := rfl
@[simp] theorem dropTop_image : (dropTop s).image = s.image := rfl
@[simp] theorem dropTop_status : (dropTop s).status = s.status := rfl

/-! ### setHalted -/

@[simp] theorem setHalted_cfg : (setHalted s).cfg = s.cfg := rfl
@[simp] theorem setHalted_regs : (setHalted s).regs = s.regs := rfl
@[simp] theorem setHalted_pc : (setHalted s).pc = s.pc := rfl
@[simp] theorem setHalted_ras : (setHalted s).ras = s.ras := rfl
@[simp] theorem setHalted_mem : (setHalted s).mem = s.mem := rfl
@[simp] theorem setHalted_memDraw : (setHalted s).memDraw = s.memDraw := rfl
@[simp] theorem setHalted_image : (setHalted s).image = s.image := rfl
@[simp] theorem setHalted_status : (setHalted s).status = .halted := rfl

/-! ### raiseFault -/

@[simp] theorem raiseFault_cfg (c : FaultCause) : (raiseFault s c).cfg = s.cfg := rfl
@[simp] theorem raiseFault_regs (c : FaultCause) : (raiseFault s c).regs = s.regs := rfl
@[simp] theorem raiseFault_pc (c : FaultCause) : (raiseFault s c).pc = s.pc := rfl
@[simp] theorem raiseFault_ras (c : FaultCause) : (raiseFault s c).ras = s.ras := rfl
@[simp] theorem raiseFault_mem (c : FaultCause) : (raiseFault s c).mem = s.mem := rfl
@[simp] theorem raiseFault_memDraw (c : FaultCause) : (raiseFault s c).memDraw = s.memDraw := rfl
@[simp] theorem raiseFault_image (c : FaultCause) : (raiseFault s c).image = s.image := rfl
@[simp] theorem raiseFault_status (c : FaultCause) : (raiseFault s c).status = .faulted c := rfl

/-! ### Right after reset -/

@[simp] theorem reset_cfg : State.reset.cfg = referenceConfig := rfl
@[simp] theorem reset_regs : State.reset.regs = List.replicate 16 0 := rfl
@[simp] theorem reset_pc : State.reset.pc = 0 := rfl
@[simp] theorem reset_ras : State.reset.ras = [] := rfl
@[simp] theorem reset_mem : State.reset.mem = [] := rfl
@[simp] theorem reset_image : State.reset.image = [] := rfl
@[simp] theorem reset_status : State.reset.status = .running := rfl

end Sys2Proof.Laws
end

