-- ==== Sys2Proof/Laws/Memory.lean ====
section
/-! SUPPORT. The laws of the data memory: what a cell reads after a write, and that a write keeps the canonical
form. -/

namespace Sys2Proof.Laws

open Sys2Proof Sys2Proof.Machine

@[simp] theorem lookup_nil (a : Nat) : Memory.lookup [] a = none := rfl

/-- The cell written reads as the value written. -/
@[simp] theorem lookup_insert_same (m : Memory) (a v : Nat) : (m.insert a v).lookup a = some v := by
  induction m with
  | nil => simp [Memory.insert, Memory.lookup]
  | cons p m ih =>
    simp only [Memory.insert]
    split
    · simp [Memory.lookup]
    · split
      · simp [Memory.lookup]
      · next h => simp [Memory.lookup, h, ih]

/-- A cell not written reads as before. -/
theorem lookup_insert_other (m : Memory) {a b : Nat} (v : Nat) (h : b ≠ a) :
    (m.insert a v).lookup b = m.lookup b := by
  induction m with
  | nil => simp [Memory.insert, Memory.lookup, h]
  | cons p m ih =>
    simp only [Memory.insert]
    split
    · simp [Memory.lookup, h]
    · split
      · next hp => simp [Memory.lookup, h, ← hp]
      · simp [Memory.lookup, ih]

/-- Every entry after a write is the one written or one from before. -/
theorem mem_insert {m : Memory} {a v : Nat} {p : Nat × Nat} (h : p ∈ m.insert a v) : p = (a, v) ∨ p ∈ m := by
  induction m with
  | nil => simpa [Memory.insert] using h
  | cons q m ih =>
    simp only [Memory.insert] at h
    split at h
    · simpa using h
    · split at h
      · rcases List.mem_cons.1 h with h | h
        · exact .inl h
        · exact .inr (List.mem_cons_of_mem _ h)
      · rcases List.mem_cons.1 h with h | h
        · exact .inr (h ▸ List.mem_cons_self)
        · exact (ih h).imp id (List.mem_cons_of_mem _)

/-- A write keeps the addresses strictly rising. -/
theorem insert_wf {m : Memory} (a v : Nat) (h : m.wf) : (m.insert a v).wf := by
  induction m with
  | nil => simp [Memory.insert]
  | cons q m ih =>
    obtain ⟨hq, hm⟩ := List.pairwise_cons.1 h
    simp only [Memory.insert]
    split
    · next hlt =>
      refine List.pairwise_cons.2 ⟨fun p hp => ?_, h⟩
      rcases List.mem_cons.1 hp with rfl | hp
      · exact hlt
      · exact Nat.lt_trans hlt (hq p hp)
    · split
      · next he => exact List.pairwise_cons.2 ⟨fun p hp => he ▸ hq p hp, hm⟩
      · next hlt hne =>
        refine List.pairwise_cons.2 ⟨fun p hp => ?_, ih hm⟩
        rcases mem_insert hp with rfl | hp
        · have : ¬ a < q.1 := hlt
          have : ¬ a = q.1 := hne
          show q.1 < a
          omega
        · exact hq p hp

/-- An entry's value is what its cell reads. -/
theorem lookup_some_mem {m : Memory} {a v : Nat} (h : m.lookup a = some v) : (a, v) ∈ m := by
  induction m with
  | nil => simp at h
  | cons q m ih =>
    simp only [Memory.lookup] at h
    split at h
    · next he =>
      cases h
      exact he ▸ List.mem_cons_self
    · exact List.mem_cons_of_mem _ (ih h)

/-- Reset's memory has the canonical form. -/
theorem reset_mem_wf : State.reset.mem.wf := List.Pairwise.nil

end Sys2Proof.Laws
end

