-- ==== Sys2Proof/Laws/Ops.lean ====
section
/-! SUPPORT. What each shared operation does to what can be read: registers, data cells, and the operations the
meanings are built from. -/

namespace Sys2Proof.Laws

open Sys2Proof Sys2Proof.Machine

/-! ### Reads that an update does not reach -/

@[simp] theorem readReg_memWrite (s : State) (a : CellAddr) (v : Nat) (i : RegIx) :
    readReg (memWrite s a v) i = readReg s i := rfl
@[simp] theorem readReg_setPc (s : State) (t : PcWord) (i : RegIx) : readReg (setPc s t) i = readReg s i := rfl
@[simp] theorem readReg_advance (s : State) (i : RegIx) : readReg (advance s) i = readReg s i := rfl
@[simp] theorem readReg_push (s : State) (v : PcWord) (i : RegIx) : readReg (push s v) i = readReg s i := rfl
@[simp] theorem readReg_dropTop (s : State) (i : RegIx) : readReg (dropTop s) i = readReg s i := rfl
@[simp] theorem readReg_setHalted (s : State) (i : RegIx) : readReg (setHalted s) i = readReg s i := rfl
@[simp] theorem readReg_raiseFault (s : State) (c : FaultCause) (i : RegIx) :
    readReg (raiseFault s c) i = readReg s i := rfl
@[simp] theorem memRead_writeReg (s : State) (i : RegIx) (v : Int) (a : CellAddr) :
    memRead (writeReg s i v) a = memRead s a := rfl
@[simp] theorem memRead_setPc (s : State) (t : PcWord) (a : CellAddr) : memRead (setPc s t) a = memRead s a := rfl
@[simp] theorem memRead_advance (s : State) (a : CellAddr) : memRead (advance s) a = memRead s a := rfl
@[simp] theorem memRead_push (s : State) (v : PcWord) (a : CellAddr) : memRead (push s v) a = memRead s a := rfl
@[simp] theorem memRead_dropTop (s : State) (a : CellAddr) : memRead (dropTop s) a = memRead s a := rfl
@[simp] theorem memRead_setHalted (s : State) (a : CellAddr) : memRead (setHalted s) a = memRead s a := rfl
@[simp] theorem memRead_raiseFault (s : State) (c : FaultCause) (a : CellAddr) :
    memRead (raiseFault s c) a = memRead s a := rfl

/-! ### Registers -/

/-- A hardwired r0 reads 0 (R33). -/
theorem readReg_hardwired {s : State} {i : RegIx} (h : hardwired s i = true) : readReg s i = 0 := by
  simp [readReg, h]

/-- Whether a register is hardwired depends on the parameters alone. -/
theorem hardwired_writeReg (s : State) (i j : RegIx) (v : Int) : hardwired (writeReg s i v) j = hardwired s j := rfl

/-- A write to a hardwired r0 is discarded (R33). -/
theorem writeReg_hardwired {s : State} {i : RegIx} (v : Int) (h : hardwired s i = true) : writeReg s i v = s := by
  simp [writeReg, h]

/-- The register written reads as the value reduced mod 2^W (R31). -/
theorem readReg_writeReg_same {s : State} {i : RegIx} (v : Int) (hw : hardwired s i = false)
    (h : i.toNat < s.regs.length) : readReg (writeReg s i v) i = (v % (s.cfg.modulus : Int)).toNat := by
  simp [readReg, hardwired_writeReg, hw, writeReg_regs, h]

/-- A register not written reads as before. -/
theorem readReg_writeReg_other (s : State) {i j : RegIx} (v : Int) (h : j ≠ i) :
    readReg (writeReg s i v) j = readReg s j := by
  have hn : i.toNat ≠ j.toNat := fun e => h (BitVec.eq_of_toNat_eq e.symm)
  rw [readReg, readReg, hardwired_writeReg, writeReg_regs]
  split
  · rfl
  · split <;> simp [List.getD, hn]

/-- A write keeps the number of registers. -/
@[simp] theorem writeReg_regs_length (s : State) (i : RegIx) (v : Int) :
    (writeReg s i v).regs.length = s.regs.length := by
  rw [writeReg_regs]
  split <;> simp

/-- The value a write leaves is below 2^W (R31). -/
theorem wrapped_lt (s : State) (v : Int) : (v % (s.cfg.modulus : Int)).toNat < s.cfg.modulus := by
  have hp : (0 : Int) < (s.cfg.modulus : Int) := by
    have : 0 < s.cfg.modulus := Nat.two_pow_pos _
    exact_mod_cast this
  have h1 := Int.emod_nonneg v (Int.ne_of_gt hp)
  have h2 := Int.emod_lt_of_pos v hp
  omega

/-- Every register value after a write is one from before or the reduced value. -/
theorem mem_writeReg_regs {s : State} {i : RegIx} {v : Int} {x : Nat} (h : x ∈ (writeReg s i v).regs) :
    x ∈ s.regs ∨ x = (v % (s.cfg.modulus : Int)).toNat := by
  rw [writeReg_regs] at h
  split at h
  · exact .inl h
  · exact List.mem_or_eq_of_mem_set h

/-! ### Data memory -/

/-- The cell written reads as the value written (R73). -/
@[simp] theorem memRead_memWrite_same (s : State) (a : CellAddr) (v : Nat) : memRead (memWrite s a v) a = v := by
  simp [memRead]

/-- A cell not written reads as before. -/
theorem memRead_memWrite_other (s : State) {a b : CellAddr} (v : Nat) (h : b ≠ a) :
    memRead (memWrite s a v) b = memRead s b := by
  have hn : b.toNat ≠ a.toNat := fun e => h (BitVec.eq_of_toNat_eq e)
  simp [memRead, lookup_insert_other _ _ hn]

/-! ### The shared operations of the meanings -/

/-- What an ALU instruction answers (R140). -/
theorem aluOp_next {op : Nat → Nat → Int} {o : Operand1} {rs2 rd : RegIx} {s t : State}
    (h : aluOp op o rs2 rd s = .next t) :
    t = advance (writeReg s rd (op (o.value s) (readReg s rs2))) := by
  simpa [aluOp, eq_comm] using h

/-- A transfer changes the pc alone, to the target when taken and to pc + 4 when not (R180). -/
theorem transfer_eq_setPc (b : Bool) (t : Target) (s : State) :
    transfer b t s = setPc s (if b then targetPc t else s.pc + 4) := by
  cases b <;> rfl

/-- What `jal` answers (R186): the overflow fault on a full stack, else the push and the jump. -/
theorem execJal_cases (t : Target) (s : State) :
    (rasFull s = true ∧ execJal t s = .next (raiseFault s (.stackOverflow s.pc))) ∨
      (rasFull s = false ∧ execJal t s = .next (setPc (push s s.pc) (targetPc t))) := by
  cases h : rasFull s <;> simp [execJal, h]

/-- What `ret` answers (R187): the underflow fault on an empty stack, else the pop. -/
theorem execRet_cases (s : State) :
    (s.ras = [] ∧ execRet s = .next (raiseFault s (.stackUnderflow s.pc))) ∨
      ∃ a l, s.ras = a :: l ∧ execRet s = .next (setPc (dropTop s) a) := by
  cases h : s.ras with
  | nil => exact .inl ⟨rfl, by simp [execRet, h]⟩
  | cons a l => exact .inr ⟨a, l, rfl, by simp [execRet, h]⟩

end Sys2Proof.Laws
end

