-- ==== Sys2Proof/Laws/PerInstr.lean ====
section
/-! SUPPORT. Families of facts about instructions as syntax, one lemma per constructor of `Instr`. The family
EncodedFields: the encoder writes the mnemonic's opcode byte, its word is malformed exactly when the instruction's
register fields are illegal, and the decoder's field extraction gives the instruction back. -/

namespace Sys2Proof.Laws.EncodedFields

open Sys2Proof

/-- What the encoded word of an instruction shows (R93 to R100, R108). A `jal` or `ret` of the small revision is
refused by the opcode lookup, so the second clause leaves the revision out. -/
def Statement (i : Instr) : Prop :=
  ∀ c : Config, (encode c i).b0 = c.opcodes.opOf i.mnemonic ∧
    (c.has i.mnemonic = true → (malformed c i.mnemonic.shape (encode c i) = !i.wf c)) ∧
    i.mnemonic.build (encode c i) = i

theorem noop : Statement .noop := fun _ => by
  simp [encode, nullaryWord, malformed, Instr.mnemonic, Mnemonic.shape, Mnemonic.build, Instr.wf, OpcodeMap.opOf]
theorem halt : Statement .halt := fun _ => by
  simp [encode, nullaryWord, malformed, Instr.mnemonic, Mnemonic.shape, Mnemonic.build, Instr.wf, OpcodeMap.opOf]
theorem add (rs1 rs2 rd : RegIx) : Statement (.add rs1 rs2 rd) := fun _ => ⟨rfl, fun _ => rfl, rfl⟩
theorem sub (rs1 rs2 rd : RegIx) : Statement (.sub rs1 rs2 rd) := fun _ => ⟨rfl, fun _ => rfl, rfl⟩
theorem and (rs1 rs2 rd : RegIx) : Statement (.and rs1 rs2 rd) := fun _ => ⟨rfl, fun _ => rfl, rfl⟩
theorem or (rs1 rs2 rd : RegIx) : Statement (.or rs1 rs2 rd) := fun _ => ⟨rfl, fun _ => rfl, rfl⟩
theorem xor (rs1 rs2 rd : RegIx) : Statement (.xor rs1 rs2 rd) := fun _ => ⟨rfl, fun _ => rfl, rfl⟩
theorem addi (imm : Byte) (rs2 rd : RegIx) : Statement (.addi imm rs2 rd) := fun _ => ⟨rfl, fun _ => rfl, rfl⟩
theorem subi (imm : Byte) (rs2 rd : RegIx) : Statement (.subi imm rs2 rd) := fun _ => ⟨rfl, fun _ => rfl, rfl⟩
theorem andi (imm : Byte) (rs2 rd : RegIx) : Statement (.andi imm rs2 rd) := fun _ => ⟨rfl, fun _ => rfl, rfl⟩
theorem ori (imm : Byte) (rs2 rd : RegIx) : Statement (.ori imm rs2 rd) := fun _ => ⟨rfl, fun _ => rfl, rfl⟩
theorem xori (imm : Byte) (rs2 rd : RegIx) : Statement (.xori imm rs2 rd) := fun _ => ⟨rfl, fun _ => rfl, rfl⟩
theorem store (r : RegIx) (a : CellAddr) : Statement (.store r a) := fun _ =>
  ⟨rfl, fun _ => rfl, congrArg (Instr.store r) (raWord_addr _ _ _)⟩
theorem load (r : RegIx) (a : CellAddr) : Statement (.load r a) := fun _ =>
  ⟨rfl, fun _ => rfl, congrArg (Instr.load r) (raWord_addr _ _ _)⟩
theorem cmp (rs1 rs2 : RegIx) : Statement (.cmp rs1 rs2) := fun c => by
  simp [encode, malformed, Instr.mnemonic, Mnemonic.shape, Mnemonic.build, Instr.wf, OpcodeMap.opOf]
theorem jmp (t : Target) : Statement (.jmp t) := fun _ => ⟨rfl, fun _ => rfl, congrArg Instr.jmp (jumpWord_target _ _)⟩
theorem jeq (t : Target) : Statement (.jeq t) := fun _ => ⟨rfl, fun _ => rfl, congrArg Instr.jeq (jumpWord_target _ _)⟩
theorem jne (t : Target) : Statement (.jne t) := fun _ => ⟨rfl, fun _ => rfl, congrArg Instr.jne (jumpWord_target _ _)⟩
theorem jlt (t : Target) : Statement (.jlt t) := fun _ => ⟨rfl, fun _ => rfl, congrArg Instr.jlt (jumpWord_target _ _)⟩
theorem jgt (t : Target) : Statement (.jgt t) := fun _ => ⟨rfl, fun _ => rfl, congrArg Instr.jgt (jumpWord_target _ _)⟩
theorem jal (t : Target) : Statement (.jal t) := fun c =>
  ⟨rfl, fun h => by simpa [malformed, Instr.mnemonic, Mnemonic.shape, Instr.wf] using h,
    congrArg Instr.jal (jumpWord_target _ _)⟩
theorem ret : Statement .ret := fun c =>
  ⟨rfl, fun h => by
    simpa [encode, nullaryWord, malformed, Instr.mnemonic, Mnemonic.shape, Instr.wf] using h, rfl⟩

end Sys2Proof.Laws.EncodedFields
end

