-- ==== Sys2Proof/Laws/Step.lean ====
section
/-! SUPPORT. What a fetch and a step can do, said once: later proofs take a step apart with these. -/

namespace Sys2Proof.Laws

open Sys2Proof Sys2Proof.Machine

/-- A fetch succeeds exactly at an aligned pc whose word lies inside the image (R110). -/
theorem fetch_ok_iff {s : State} {w : InstrWord} :
    fetch s = .ok w ↔
      s.pc.toNat % 4 = 0 ∧ s.pc.toNat + 4 ≤ s.image.length ∧ w = imageWord s.image s.pc.toNat := by
  unfold fetch
  split
  · simp_all
  · split
    · simp_all
    · simp_all [eq_comm]

/-- The two fetch faults (R211, R212). -/
theorem fetch_error_iff {s : State} {c : FaultCause} :
    fetch s = .error c ↔
      (s.pc.toNat % 4 ≠ 0 ∧ c = .misalignedFetch s.pc) ∨
        (s.pc.toNat % 4 = 0 ∧ s.image.length < s.pc.toNat + 4 ∧ c = .fetchOutOfRange s.pc) := by
  unfold fetch
  split
  · simp_all [eq_comm]
  · split
    · simp_all [eq_comm]
    · simp_all

/-- What decode answers (R111). -/
theorem decode_cases (c : Config) (w : InstrWord) :
    (c.opLookup w.b0 = none ∧ decode c w = .error .unknownOpcode) ∨
      ∃ m, c.opLookup w.b0 = some m ∧
        ((malformed c m.shape w = true ∧ decode c w = .error .malformed) ∨
          (malformed c m.shape w = false ∧ decode c w = .ok (m.build w))) := by
  unfold decode
  cases h : c.opLookup w.b0 with
  | none => exact .inl ⟨rfl, rfl⟩
  | some m =>
    refine .inr ⟨m, rfl, ?_⟩
    cases hm : malformed c m.shape w
    · exact .inr ⟨rfl, by simp [hm]⟩
    · exact .inl ⟨rfl, by simp [hm]⟩

/-- A fetch and decode that succeed (R114). -/
theorem fetchDecode_ok_iff {s : State} {i : Instr} :
    fetchDecode s = .ok i ↔ ∃ w, fetch s = .ok w ∧ decode s.cfg w = .ok i := by
  unfold fetchDecode
  cases fetch s with
  | error c => simp
  | ok w => cases h : decode s.cfg w <;> simp [h]

/-- A fetch or decode that faults (R114). -/
theorem fetchDecode_error_iff {s : State} {c : FaultCause} :
    fetchDecode s = .error c ↔
      fetch s = .error c ∨
        ∃ w e, fetch s = .ok w ∧ decode s.cfg w = .error e ∧ c = decodeFault s.pc w e := by
  unfold fetchDecode
  cases fetch s with
  | error c => simp
  | ok w => cases h : decode s.cfg w <;> simp [h, eq_comm]

/-- Everything a step that goes on has done (R114): from a running state, it took a fetch or decode fault, or it ran
the instruction it fetched. -/
theorem step_next_cases {s t : State} (h : step s = .next t) :
    s.status = .running ∧
      ((∃ c, fetchDecode s = .error c ∧ t = raiseFault s c) ∨
        ∃ i, fetchDecode s = .ok i ∧ exec i s = .next t) := by
  unfold step at h
  split at h
  · cases h
  · cases h
  · next hr =>
    refine ⟨hr, ?_⟩
    split at h
    · next c hc => exact .inl ⟨c, hc, by simpa [eq_comm] using h⟩
    · next i hi => exact .inr ⟨i, hi, h⟩

/-- A running machine whose fetch or decode faults takes the fault (R215). -/
theorem step_of_fault {s : State} {c : FaultCause} (hr : s.status = .running) (h : fetchDecode s = .error c) :
    step s = .next (raiseFault s c) := by
  simp [step, hr, h]

/-- A running machine that fetches an instruction is at its `exec` (R114). -/
theorem step_of_instr {s : State} {i : Instr} (hr : s.status = .running) (h : fetchDecode s = .ok i) :
    step s = exec i s := by
  simp [step, hr, h]

end Sys2Proof.Laws
end

