-- ==== Sys2Proof/Tests/Slice0.lean ====
section
/-! SUPPORT. Tests whose expected results come from the spec (spec/95_test_vectors.md; the vector's id stands with each
test, "R93" where the word was written out from the encoding table), and for every obligation with hypotheses a
witness that meets them. -/

namespace Sys2Proof.Tests

open Sys2Proof Sys2Proof.Machine Sys2Proof.Safety

/-! ### WellFormed: each check refuses an ill-formed term -/

/-- The small profile: N = 8, W = 8 (R3). -/
def smallConfig : Config := { referenceConfig with revision := .small, width := 8 }

theorem test_referenceConfig_wf : referenceConfig.wf := by decide
theorem test_smallConfig_wf : smallConfig.wf := by decide
theorem test_wf_refuses_width : ¬ { referenceConfig with width := 7 }.wf := by decide
theorem test_wf_refuses_small_width : ¬ { smallConfig with width := 16 }.wf := by decide
theorem test_wf_refuses_equal_codes : ¬ { referenceConfig with codes := ⟨0, 1, 1, 3⟩ }.wf := by decide
theorem test_wf_refuses_wide_code : ¬ { referenceConfig with codes := ⟨0, 1, 2, 65536⟩ }.wf := by decide
theorem test_wf_refuses_equal_opcodes :
    ¬ { referenceConfig with opcodes := { referenceOpcodes with ret := 0 } }.wf := by decide
theorem test_wf_refuses_no_stack : ¬ { referenceConfig with rasDepth := 0 }.wf := by decide
theorem test_wf_refuses_image_bound : ¬ { referenceConfig with imageMaxBytes := 2 ^ 32 }.wf := by decide

theorem test_instr_wf_accepts : (Instr.add 15 0 15).wf referenceConfig = true := by decide
theorem test_instr_wf_refuses_rs1 : (Instr.add 16 0 15).wf referenceConfig = false := by decide
theorem test_instr_wf_refuses_rs2 : (Instr.addi 255 16 0).wf referenceConfig = false := by decide
theorem test_instr_wf_refuses_rd : (Instr.xor 0 0 16).wf referenceConfig = false := by decide
theorem test_instr_wf_refuses_r : (Instr.load 16 0).wf referenceConfig = false := by decide
theorem test_instr_wf_refuses_small_reg : (Instr.cmp 8 0).wf smallConfig = false := by decide
theorem test_instr_wf_refuses_small_jal : (Instr.jal 0).wf smallConfig = false := by decide
theorem test_instr_wf_refuses_small_ret : Instr.ret.wf smallConfig = false := by decide

/-! ### Decode: a word of every constructor, written out from R93 under the opcodes of R101 -/

theorem test_decode_noop : decodeTableWord 32 0x00000000 = some .noop := by decide
theorem test_decode_halt : decodeTableWord 32 0x01010101 = some .halt := by decide
theorem test_decode_add : decodeTableWord 32 0x02020F0F = some (.add 2 15 15) := by decide
theorem test_decode_sub : decodeTableWord 32 0x03020304 = some (.sub 2 3 4) := by decide
theorem test_decode_and : decodeTableWord 32 0x04020304 = some (.and 2 3 4) := by decide
theorem test_decode_or : decodeTableWord 32 0x05070208 = some (.or 7 2 8) := by decide
theorem test_decode_xor : decodeTableWord 32 0x06020503 = some (.xor 2 5 3) := by decide
theorem test_decode_addi : decodeTableWord 32 0x07FF0102 = some (.addi 255 1 2) := by decide
theorem test_decode_subi : decodeTableWord 32 0x080A0203 = some (.subi 10 2 3) := by decide
theorem test_decode_andi : decodeTableWord 32 0x090F0607 = some (.andi 15 6 7) := by decide
theorem test_decode_ori : decodeTableWord 32 0x0A010203 = some (.ori 1 2 3) := by decide
theorem test_decode_xori : decodeTableWord 32 0x0BFF0506 = some (.xori 255 5 6) := by decide
theorem test_decode_store : decodeTableWord 32 0x0C02BEEF = some (.store 2 0xBEEF) := by decide
theorem test_decode_load : decodeTableWord 32 0x0D051234 = some (.load 5 0x1234) := by decide
theorem test_decode_cmp : decodeTableWord 32 0x0E020300 = some (.cmp 2 3) := by decide
theorem test_decode_jmp : decodeTableWord 32 0x0F010204 = some (.jmp 0x010204) := by decide
theorem test_decode_jeq : decodeTableWord 32 0x10000008 = some (.jeq 8) := by decide
theorem test_decode_jne : decodeTableWord 32 0x11123456 = some (.jne 0x123456) := by decide
theorem test_decode_jlt : decodeTableWord 32 0x12000100 = some (.jlt 0x100) := by decide
theorem test_decode_jgt : decodeTableWord 32 0x13FFFFFC = some (.jgt 0xFFFFFC) := by decide
theorem test_decode_jal : decodeTableWord 32 0x14000008 = some (.jal 8) := by decide
theorem test_decode_ret : decodeTableWord 32 0x15151515 = some .ret := by decide

/-- The decode of a word under a configuration, for comparison. -/
def decodeOf (c : Config) (v : BitVec 32) : Option Instr ⊕ DecodeError :=
  match decode c (InstrWord.ofBits v) with
  | .ok i => .inl (some i)
  | .error e => .inr e

/-- S7: unknown is checked before malformed. -/
theorem test_decode_unknown_first : decodeOf referenceConfig 0x16FF1010 = .inr .unknownOpcode := by decide
/-- S4, C6, K6, A24: the malformed words. -/
theorem test_decode_malformed_noop : decodeOf referenceConfig 0x00000001 = .inr .malformed := by decide
theorem test_decode_malformed_ret : decodeOf referenceConfig 0x15151500 = .inr .malformed := by decide
theorem test_decode_malformed_cmp : decodeOf referenceConfig 0x0E020301 = .inr .malformed := by decide
theorem test_decode_malformed_reg : decodeOf referenceConfig 0x02100203 = .inr .malformed := by decide
/-- A26, C8, C9: the small revision. -/
theorem test_decode_small_reg : decodeOf smallConfig 0x02080102 = .inr .malformed := by decide
theorem test_decode_small_jal : decodeOf smallConfig 0x14000008 = .inr .unknownOpcode := by decide
theorem test_decode_small_ret : decodeOf smallConfig 0x15151515 = .inr .unknownOpcode := by decide

theorem test_encode_store : (encode referenceConfig (.store 2 0xBEEF)).toBits = 0x0C02BEEF := by decide
theorem test_encode_jmp : (encode referenceConfig (.jmp 0x010204)).toBits = 0x0F010204 := by decide
theorem test_encode_ret : (encode referenceConfig .ret).toBits = 0x15151515 := by decide
theorem test_encode_cmp : (encode referenceConfig (.cmp 2 3)).toBits = 0x0E020300 := by decide

/-! ### One step of each instruction -/

/-- The state a step leaves, if it leaves one. -/
def after (s : State) : Option State :=
  match step s with
  | .next t => some t
  | .fault _ => none
  | .refused _ => none

/-- A machine of configuration `c` with registers preloaded and the word to run at the pc. -/
def load1 (c : Config) (values : List (RegIx × Nat)) (w : Nat) : State :=
  (preload (launch c 0 []) values).withFetchWord 32 w

/-- A register after one step under the reference configuration. -/
def regAfter (values : List (RegIx × Nat)) (w : Nat) (i : RegIx) : Option Nat :=
  (after (load1 referenceConfig values w)).map fun t => readReg t i

/-- The pc after one step under the reference configuration. -/
def pcAfter (values : List (RegIx × Nat)) (w : Nat) : Option PcWord :=
  (after (load1 referenceConfig values w)).map fun t => t.pc

/-- E3 -/
theorem test_add_e3 : regAfter [(1, 4), (2, 5)] 0x02010203 3 = some 9 := by decide
/-- A1 -/
theorem test_add_wraps : regAfter [(2, 0xFFFF), (3, 1)] 0x02020304 4 = some 0 := by decide
/-- A4 -/
theorem test_sub_wraps : regAfter [(2, 5), (3, 7)] 0x03020304 4 = some 0xFFFE := by decide
/-- A5 -/
theorem test_sub_minuend_first : regAfter [(2, 5), (3, 7)] 0x03030204 4 = some 2 := by decide
/-- A7 -/
theorem test_and_a7 : regAfter [(2, 0x00F0), (3, 0x0FF0)] 0x04020304 4 = some 0x00F0 := by decide
/-- A8 -/
theorem test_or_a8 : regAfter [(2, 0x1200), (3, 0x0034)] 0x05020304 4 = some 0x1234 := by decide
/-- A9 -/
theorem test_xor_a9 : regAfter [(2, 0xFF00), (3, 0x0FF0)] 0x06020304 4 = some 0xF0F0 := by decide
/-- A10 -/
theorem test_xor_self : regAfter [(2, 0xABCD)] 0x06020202 2 = some 0 := by decide
/-- A12 -/
theorem test_addi_a12 : regAfter [(2, 1)] 0x07FF0202 2 = some 0x0100 := by decide
/-- A12 at W = 8, in the small profile -/
theorem test_addi_wraps_w8 :
    ((after (load1 smallConfig [(2, 1)] 0x07FF0202)).map fun t => readReg t 2) = some 0 := by decide
/-- A13 -/
theorem test_subi_a13 : regAfter [(2, 3)] 0x080A0203 3 = some 7 := by decide
/-- A15 -/
theorem test_subi_negates : regAfter [(2, 1)] 0x08000203 3 = some 0xFFFF := by decide
/-- A17 -/
theorem test_andi_zero_extends : regAfter [(2, 0xABCD)] 0x09FF0203 3 = some 0x00CD := by decide
/-- A18 -/
theorem test_ori_a18 : regAfter [(2, 0x0100)] 0x0A010202 2 = some 0x0101 := by decide
/-- A20 -/
theorem test_xori_keeps_high_byte : regAfter [(5, 0x1200)] 0x0BFF0506 6 = some 0x12FF := by decide
/-- A22 -/
theorem test_r0_ordinary : regAfter [] 0x07050000 0 = some 5 := by decide
/-- A23 -/
theorem test_r0_hardwired :
    ((after (load1 { referenceConfig with r0Hardwired := true } [] 0x07050000)).map fun t => (readReg t 0, t.pc)) =
      some (0, 4) := by decide
/-- M3 -/
theorem test_store_m3 :
    ((after (load1 referenceConfig [(2, 0xABCD)] 0x0C02FFFF)).map fun t => memRead t 0xFFFF) = some 0xABCD := by
  decide
/-- M2 -/
theorem test_load_m2 :
    ((after { load1 referenceConfig [] 0x0D05BEEF with mem := [(0xBEEF, 200)] }).map fun t => readReg t 5) =
      some 200 := by decide
/-- M5: a cell no store has written reads as its MEM_INIT value, and the instruction runs. -/
theorem test_load_unwritten :
    memRead State.reset 0 = Config.memInit 0 0 % 65536 ∧ pcAfter [] 0x0D030000 = some 4 := ⟨rfl, by decide⟩
/-- K4 -/
theorem test_cmp_unsigned : regAfter [(2, 0xFFFF), (3, 1)] 0x0E020300 1 = some 3 := by decide
/-- K5 -/
theorem test_cmp_reads_old_flag : regAfter [(1, 3), (2, 3)] 0x0E010200 1 = some 0 := by decide
/-- J1 -/
theorem test_jmp_j1 : pcAfter [] 0x0F00000C = some 0x0C := by decide
/-- J2 -/
theorem test_jeq_j2 : pcAfter [] 0x10000008 = some 8 := by decide
/-- J3 -/
theorem test_jeq_j3 : pcAfter [(1, 2)] 0x10000008 = some 4 := by decide
/-- J7 -/
theorem test_jne_no_code : pcAfter [(1, 7)] 0x11000024 = some 0x24 := by decide
/-- J5 -/
theorem test_jne_j5 : pcAfter [] 0x11000024 = some 4 := by decide
/-- J8, at pc 0 with another target -/
theorem test_jlt_taken : pcAfter [(1, 2)] 0x12000010 = some 0x10 := by decide
/-- J9, at pc 0 -/
theorem test_jlt_not_taken : pcAfter [(1, 3)] 0x12000010 = some 4 := by decide
/-- J10 -/
theorem test_jgt_j10 : pcAfter [(1, 3)] 0x13000008 = some 8 := by decide
/-- J11 -/
theorem test_jgt_no_code : pcAfter [(1, 7)] 0x13000008 = some 4 := by decide

/-- The stack, the pc and the status after one step. -/
def callAfter (s : State) : Option (List PcWord × PcWord × Status) := (after s).map fun t => (t.ras, t.pc, t.status)

/-- A machine at pc 0x10 with a stack. -/
def atCall (c : Config) (ras : List PcWord) (w : Nat) : State :=
  ({ launch c 0 [] with pc := 0x10, ras := ras }).withFetchWord 32 w

/-- C2: the top of the stack is written first. -/
theorem test_jal_c2 : callAfter (atCall referenceConfig [0] 0x14000008) = some ([0x10, 0], 8, .running) := by decide
/-- C5 -/
theorem test_jal_overflow :
    callAfter (atCall { referenceConfig with rasDepth := 1 } [0] 0x14000008) =
      some ([0], 0x10, .faulted (.stackOverflow 0x10)) := by decide
/-- C3, at pc 0x10 -/
theorem test_ret_c3 : callAfter (atCall referenceConfig [0x20, 0] 0x15151515) = some ([0], 0x20, .running) := by decide
/-- C4 -/
theorem test_ret_underflow :
    callAfter (atCall referenceConfig [] 0x15151515) = some ([], 0x10, .faulted (.stackUnderflow 0x10)) := by decide
/-- E4 -/
theorem test_halt_e4 : callAfter (load1 referenceConfig [] 0x01010101) = some ([], 4, .halted) := by decide
/-- S2 -/
theorem test_noop_s2 : callAfter (atCall referenceConfig [] 0x00000000) = some ([], 0x14, .running) := by decide
/-- S5 -/
theorem test_unknown_s5 :
    callAfter (load1 referenceConfig [] 0x16161616) =
      some ([], 0, .faulted (.unknownOpcode 0 ⟨0x16, 0x16, 0x16, 0x16⟩)) := by decide
/-- J14: misaligned wins over out of range. -/
theorem test_misaligned_first :
    callAfter { State.reset with pc := 0xFFFFFF } = some ([], 0xFFFFFF, .faulted (.misalignedFetch 0xFFFFFF)) := by
  decide
/-- S9 -/
theorem test_empty_image : callAfter State.reset = some ([], 0, .faulted (.fetchOutOfRange 0)) := by decide
/-- S8 -/
theorem test_image_length :
    (launch referenceConfig 0 [1, 1, 1, 1, 0]).status = .faulted (.imageLength 5) := by decide
theorem test_image_too_long :
    loadImage { referenceConfig with imageMaxBytes := 4 } 0 [0, 0, 0, 0, 0, 0, 0, 0] = none := by decide
/-- `State.reset` is the launch of the empty image. -/
theorem test_reset_is_launch : launch referenceConfig 0 [] = State.reset := by decide
/-- E4: fuel, trace and register dump of the shortest run. -/
theorem test_run_halt :
    (match runFuel 2 (launch referenceConfig 0 [1, 1, 1, 1]) with
     | .halted t => some (dumpRegs t, t.pc)
     | .faulted _ _ => none
     | .noVerdict _ => none) = some (List.replicate 16 0, 4) := by decide
theorem test_trace_halt :
    traceFuel 2 (launch referenceConfig 0 [1, 1, 1, 1]) = [⟨0, ⟨1, 1, 1, 1⟩⟩] := by decide

/-! ### The assembler -/

/-- What the assembler answers, without messages. -/
def asm (source : String) : (List Byte × SymbolTable) ⊕ (AsmErrorKind × Nat) :=
  match assemble referenceConfig source.toList with
  | .ok r => .inl r
  | .error e => .inr (e.kind, e.line)

/-- E5 -/
theorem test_asm_e5 :
    asm "jmp .loop\nnoop\naddi 1 0 2\n.loop\nhalt" =
      .inl ([0x0F, 0, 0, 0x0C, 0, 0, 0, 0, 7, 1, 0, 2, 0, 0, 0, 0, 1, 1, 1, 1], [("loop".toList, 12)]) := by decide
/-- E12 -/
theorem test_asm_e12 : asm "; header\n\nhalt" = .inl ([0, 0, 0, 0, 0, 0, 0, 0, 1, 1, 1, 1], []) := by decide
/-- E11 -/
theorem test_asm_alias : asm "addi 3 ZERO comp" = .inl ([7, 3, 0, 1], []) := by decide
/-- R128 -/
theorem test_asm_hex : asm "store 2 0xBeEf" = .inl ([0x0C, 2, 0xBE, 0xEF], []) := by decide
/-- E6 -/
theorem test_asm_unknown : asm "noop\nnoop\nfoo 1 2" = .inr (.syntaxError, 3) := by decide
/-- E2 -/
theorem test_asm_range : asm "add 16 0 0" = .inr (.operandRangeError, 1) := by decide
theorem test_asm_negative : asm "add -1 0 0" = .inr (.operandRangeError, 1) := by decide
/-- R122, R132: a pass-1 error comes before any pass-2 error. -/
theorem test_asm_label_twice : asm "foo\n.a\n.a" = .inr (.labelError, 3) := by decide
/-- R129 -/
theorem test_asm_no_label : asm "jmp there" = .inr (.labelError, 1) := by decide
/-- R136 -/
theorem test_disassemble :
    (match disassemble referenceConfig ⟨0x0D, 5, 0x0B, 0xEF⟩ with
     | .ok t => some t
     | .error _ => none) = some "load 5 bef".toList := by decide

/-! ### Witnesses: a state and operands that meet the hypotheses of each obligation -/

/-- A running machine with values in every kind of state: the image is `noop`, `halt`. -/
def demo : State where
  cfg := { referenceConfig with rasDepth := 2 }
  regs := [0, 3, 5, 9, 0xFFFF, 0, 0, 0, 0, 0, 0, 0, 0, 0, 0, 7]
  pc := 4
  ras := [4]
  mem := [(0xBEEF, 200)]
  memDraw := 0
  image := [0, 0, 0, 0, 1, 1, 1, 1]
  status := .running

theorem demo_inv : Inv demo where
  cfgWf := by decide
  regCount := by decide
  regWidth := by decide
  zeroReg := by decide
  rasBound := by decide
  rasInImage := fun a ha => by
    have ha : a ∈ [(4 : PcWord)] := ha
    rw [List.mem_singleton] at ha
    subst ha
    exact ⟨by decide, by decide⟩
  rasSmall := by decide
  memSorted := by decide
  memCells := fun p hp => by
    have hp : p ∈ [((0xBEEF : Nat), (200 : Nat))] := hp
    rw [List.mem_singleton] at hp
    subst hp
    exact ⟨by norm_num, by norm_num [demo, referenceConfig]⟩
  imageBound := by decide
  imageWords := by decide

/-- The same machine with a hardwired r0. -/
def demoHard : State := { demo with cfg := { demo.cfg with r0Hardwired := true } }

theorem demoHard_inv : Inv demoHard where
  cfgWf := by decide
  regCount := by decide
  regWidth := by decide
  zeroReg := by decide
  rasBound := by decide
  rasInImage := fun a ha => by
    have ha : a ∈ [(4 : PcWord)] := ha
    rw [List.mem_singleton] at ha
    subst ha
    exact ⟨by decide, by decide⟩
  rasSmall := by decide
  memSorted := by decide
  memCells := fun p hp => by
    have hp : p ∈ [((0xBEEF : Nat), (200 : Nat))] := hp
    rw [List.mem_singleton] at hp
    subst hp
    exact ⟨by norm_num, by norm_num [demoHard, demo, referenceConfig]⟩
  imageBound := by decide
  imageWords := by decide

/-- A machine of the small profile. -/
def demoSmall : State where
  cfg := smallConfig
  regs := [0, 3, 5, 9, 0xFF, 0, 0, 7]
  pc := 0
  ras := []
  mem := []
  memDraw := 0
  image := [0, 0, 0, 0]
  status := .running

theorem demoSmall_inv : Inv demoSmall where
  cfgWf := by decide
  regCount := by decide
  regWidth := by decide
  zeroReg := by decide
  rasBound := by decide
  rasInImage := fun a ha => absurd ha List.not_mem_nil
  rasSmall := by decide
  memSorted := by decide
  memCells := fun p hp => absurd hp List.not_mem_nil
  imageBound := by decide
  imageWords := by decide

/-- The demo machine with four bytes at its pc. -/
def demoWith (b0 b1 b2 b3 : Byte) : State := { demo with image := [0, 0, 0, 0, b0, b1, b2, b3] }

theorem witness_AddWritesSum : Inv demo ∧ (Instr.add 4 15 1).wf demo.cfg = true := ⟨demo_inv, by decide⟩
theorem witness_SubWritesDifference : Inv demo ∧ (Instr.sub 2 3 15).wf demo.cfg = true := ⟨demo_inv, by decide⟩
theorem witness_AndWritesBitwiseAnd : Inv demo ∧ (Instr.and 4 2 0).wf demo.cfg = true := ⟨demo_inv, by decide⟩
theorem witness_OrWritesBitwiseOr : Inv demoHard ∧ (Instr.or 4 2 0).wf demoHard.cfg = true :=
  ⟨demoHard_inv, by decide⟩
theorem witness_XorWritesBitwiseXor : Inv demoSmall ∧ (Instr.xor 4 4 7).wf demoSmall.cfg = true :=
  ⟨demoSmall_inv, by decide⟩
theorem witness_AddiWritesSum : Inv demo ∧ (Instr.addi 255 4 15).wf demo.cfg = true := ⟨demo_inv, by decide⟩
theorem witness_SubiWritesDifference : Inv demo ∧ (Instr.subi 0 3 0).wf demo.cfg = true := ⟨demo_inv, by decide⟩
theorem witness_AndiWritesBitwiseAnd : Inv demo ∧ (Instr.andi 255 4 3).wf demo.cfg = true := ⟨demo_inv, by decide⟩
theorem witness_OriWritesBitwiseOr : Inv demo ∧ (Instr.ori 255 4 3).wf demo.cfg = true := ⟨demo_inv, by decide⟩
theorem witness_XoriWritesBitwiseXor : Inv demoSmall ∧ (Instr.xori 255 7 0).wf demoSmall.cfg = true :=
  ⟨demoSmall_inv, by decide⟩
theorem witness_StoreWritesCell : Inv demo ∧ (Instr.store 15 0xFFFF).wf demo.cfg = true := ⟨demo_inv, by decide⟩
theorem witness_LoadReadsCell : Inv demo ∧ (Instr.load 15 0xBEEF).wf demo.cfg = true := ⟨demo_inv, by decide⟩
theorem witness_LoadReadsCell_unwritten :
    Inv demo ∧ demo.mem.lookup (0 : CellAddr).toNat = none ∧ (Instr.load 0 0).wf demo.cfg = true :=
  ⟨demo_inv, by decide, by decide⟩
theorem witness_CmpWritesOutcome_less : Inv demo ∧ (Instr.cmp 2 3).wf demo.cfg = true ∧ readReg demo 2 < readReg demo 3 :=
  ⟨demo_inv, by decide, by decide⟩
theorem witness_CmpWritesOutcome_greater :
    Inv demo ∧ (Instr.cmp 4 15).wf demo.cfg = true ∧ readReg demo 4 > readReg demo 15 :=
  ⟨demo_inv, by decide, by decide⟩
theorem witness_CmpWritesOutcome_equal :
    Inv demo ∧ (Instr.cmp 0 5).wf demo.cfg = true ∧ readReg demo 0 = readReg demo 5 :=
  ⟨demo_inv, by decide, by decide⟩
theorem witness_JmpTakesTarget : Inv demo := demo_inv
theorem witness_JeqTakenIffEqual : Inv demoSmall ∧ readReg demoSmall 1 ≠ demoSmall.cfg.codes.eq :=
  ⟨demoSmall_inv, by decide⟩
theorem witness_JneTakenIffNotEqual : Inv demo ∧ readReg demo 1 ≠ demo.cfg.codes.eq := ⟨demo_inv, by decide⟩
theorem witness_JltTakenIffLess : Inv demo ∧ readReg demo 1 ≠ demo.cfg.codes.lt := ⟨demo_inv, by decide⟩
theorem witness_JgtTakenIffGreater : Inv demo ∧ readReg demo 1 = demo.cfg.codes.gt := ⟨demo_inv, by decide⟩
theorem witness_JalPushesOwnAddress : Inv demo ∧ demo.ras.length < demo.cfg.rasDepth := ⟨demo_inv, by decide⟩
theorem witness_JalPushesOwnAddress_small : Inv demoSmall ∧ demoSmall.cfg.revision = .small := ⟨demoSmall_inv, rfl⟩
theorem witness_JalOnFullStackFaults :
    ({ demo with ras := [4, 0] } : State).ras.length = demo.cfg.rasDepth := by decide
theorem witness_RetResumesAtPoppedAddress : Inv demo ∧ demo.ras = 4 :: [] := ⟨demo_inv, rfl⟩
theorem witness_RetOnEmptyStackFaults : demoSmall.ras = [] := rfl
theorem witness_CallThenReturnIsBackAtTheCall :
    demo.ras.length < demo.cfg.rasDepth ∧
      ∃ t u, exec (.jal 0) demo = .next t ∧ exec .ret t = .next u :=
  ⟨by decide, _, _, rfl, rfl⟩
theorem witness_HaltStopsTheRun : Inv demo := demo_inv
theorem witness_NoopOnlyAdvances : Inv demoHard := demoHard_inv
/-- Misaligned and beyond the image at once: the first clause. -/
theorem witness_FetchFaultsAreTaken_misaligned :
    ({ demo with pc := 9 } : State).status = .running ∧ ({ demo with pc := 9 } : State).pc.toNat % 4 ≠ 0 :=
  ⟨rfl, by decide⟩
/-- Exactly at the end of the image: the second clause. -/
theorem witness_FetchFaultsAreTaken_range :
    ({ demo with pc := 8 } : State).status = .running ∧ ({ demo with pc := 8 } : State).pc.toNat % 4 = 0 ∧
      ({ demo with pc := 8 } : State).pc.toNat + 4 > ({ demo with pc := 8 } : State).image.length :=
  ⟨rfl, by decide, by decide⟩
theorem witness_UnknownOpcodeFaults :
    CanFetch (demoWith 0x16 0 0 0) ∧
      ∀ m : Mnemonic, (demoWith 0x16 0 0 0).cfg.has m = true →
        (demoWith 0x16 0 0 0).cfg.opcodes.opOf m ≠ (imageWord (demoWith 0x16 0 0 0).image 4).b0 :=
  ⟨by unfold CanFetch; decide, fun m _ => by cases m <;> decide⟩
/-- Each way of R108: (a) unequal bytes, (b) a register byte of exactly N, (c) a last byte that is not zero. -/
theorem witness_MalformedWordFaults_nullary :
    CanFetch (demoWith 1 1 1 0) ∧ MalformedWord demo.cfg Mnemonic.halt.shape (imageWord (demoWith 1 1 1 0).image 4) :=
  ⟨by unfold CanFetch; decide, .inl ⟨rfl, by decide⟩⟩
theorem witness_MalformedWordFaults_register :
    CanFetch (demoWith 2 0 0 16) ∧ MalformedWord demo.cfg Mnemonic.add.shape (imageWord (demoWith 2 0 0 16).image 4) :=
  ⟨by unfold CanFetch; decide, .inr (.inl ⟨16, by decide, by decide⟩)⟩
theorem witness_MalformedWordFaults_rr :
    CanFetch (demoWith 0x0E 0 0 1) ∧
      MalformedWord demo.cfg Mnemonic.cmp.shape (imageWord (demoWith 0x0E 0 0 1).image 4) :=
  ⟨by unfold CanFetch; decide, .inr (.inr ⟨rfl, by decide⟩)⟩
theorem witness_FaultsArePreciseAndTerminal :
    ∃ t, step (demoWith 0x16 0 0 0) = .next t ∧ t.status = .faulted (.unknownOpcode 4 ⟨0x16, 0, 0, 0⟩) := ⟨_, rfl, rfl⟩
theorem witness_MisalignedTargetFaultsAtNextFetch :
    demo.status = .running ∧ (6 : Target).toNat % 4 ≠ 0 ∧ TakenJump demo 6 (.jmp 6) ∧ TakenJump demo 6 (.jal 6) ∧
      TakenJump demo 6 (.jne 6) ∧ TakenJump demo 6 (.jgt 6) :=
  ⟨rfl, by decide, .inl rfl, .inr (.inl ⟨rfl, by decide⟩), .inr (.inr (.inr (.inl ⟨rfl, by decide⟩))),
    .inr (.inr (.inr (.inr (.inr ⟨rfl, by decide⟩))))⟩
/-- The two conditional jumps that the demo machine does not take: r1 = CODE_EQ and r1 = CODE_LT. -/
theorem witness_MisalignedTargetFaultsAtNextFetch_equal_less :
    TakenJump { demo with regs := List.replicate 16 0 } 6 (.jeq 6) ∧
      TakenJump { demo with regs := List.replicate 16 2 } 6 (.jlt 6) :=
  ⟨.inr (.inr (.inl ⟨rfl, by decide⟩)), .inr (.inr (.inr (.inr (.inl ⟨rfl, by decide⟩))))⟩
theorem witness_ReturnTargetCanBeFetched :
    Inv demo ∧ demo.status = .running ∧ demo.ras ≠ [] ∧ ∃ t, exec .ret demo = .next t :=
  ⟨demo_inv, rfl, by decide, _, rfl⟩
theorem witness_StepRunsTheDecodedInstruction :
    CanFetch demo ∧ decode demo.cfg (imageWord demo.image demo.pc.toNat) = .ok .halt :=
  ⟨by unfold CanFetch; decide, rfl⟩
theorem witness_RunningMachineAlwaysSteps : demo.status = .running := rfl
theorem witness_OnlyHaltHalts : ∃ t, step demo = .next t ∧ t.status = .halted := ⟨_, rfl, rfl⟩
theorem witness_OnlyStoreChangesMemory :
    ∃ t, exec (.store 15 0xBEEF) demo = .next t ∧ memRead t 0xBEEF ≠ memRead demo 0xBEEF := ⟨_, rfl, by decide⟩
theorem witness_OnlyLoadReadsMemory :
    (∀ r a, Instr.store 2 0 ≠ .load r a) ∧ (∃ t, exec (.store 2 0) demo = .next t) ∧
      memRead { demo with mem := [(7, 3), (0xBEEF, 200)] } 0xBEEF = memRead demo 0xBEEF :=
  ⟨(fun _ _ h => by cases h), ⟨_, rfl⟩, by decide⟩
theorem witness_OnlyCallAndReturnTouchTheStack_jal :
    ∃ t, exec (.jal 0) demo = .next t ∧ t.ras ≠ demo.ras := ⟨_, rfl, by decide⟩
theorem witness_OnlyCallAndReturnTouchTheStack_ret : ∃ t, exec .ret demo = .next t ∧ t.ras ≠ demo.ras :=
  ⟨_, rfl, by decide⟩
theorem witness_AtMostOneRegisterChanges : ∃ t, exec (.add 2 3 15) demo = .next t := ⟨_, rfl⟩
theorem witness_ImageAndParametersNeverChange : ∃ t, step demo = .next t := ⟨_, rfl⟩
theorem witness_NextPcRule_straight : StraightLine .halt = true ∧ ∃ t, exec .halt demo = .next t := ⟨rfl, _, rfl⟩
theorem witness_NextPcRule_jmp : ∃ t, exec (.jmp 0) demo = .next t := ⟨_, rfl⟩
theorem witness_NextPcRule_jal :
    (∃ t, exec (.jal 0) demo = .next t) ∧ demo.ras.length < demo.cfg.rasDepth := ⟨⟨_, rfl⟩, by decide⟩
theorem witness_NextPcRule_ret : (∃ t, exec .ret demo = .next t) ∧ demo.ras = 4 :: [] := ⟨⟨_, rfl⟩, rfl⟩
theorem witness_NextPcRule_conditional :
    (∃ t, exec (.jeq 0) demo = .next t) ∧ (∃ t, exec (.jne 0) demo = .next t) ∧ (∃ t, exec (.jlt 0) demo = .next t) ∧
      ∃ t, exec (.jgt 0) demo = .next t := ⟨⟨_, rfl⟩, ⟨_, rfl⟩, ⟨_, rfl⟩, _, rfl⟩
theorem witness_BranchesAfterCompare :
    Inv demo ∧ (Instr.cmp 2 3).wf demo.cfg = true ∧
      ∃ t, exec (.cmp 2 3) demo = .next t ∧ (0 : Target).setWidth 32 ≠ t.pc + 4 :=
  ⟨demo_inv, by decide, _, rfl, by decide⟩
theorem witness_LoadAfterStore :
    Inv demo ∧ (Instr.store 15 0xBEEF).wf demo.cfg = true ∧ (Instr.load 0 0xBEEF).wf demo.cfg = true ∧
      ∃ t, exec (.store 15 0xBEEF) demo = .next t := ⟨demo_inv, by decide, by decide, _, rfl⟩
theorem witness_ZeroRegisterFollowsItsParameter :
    demoHard.cfg.r0Hardwired = true ∧ demo.cfg.r0Hardwired = false ∧ 0 < demo.regs.length := by decide
theorem witness_RegisterWriteTruncates :
    (15 : RegIx).toNat < demoHard.regs.length ∧ ((15 : RegIx) = 0 → demoHard.cfg.r0Hardwired = false) := by decide
theorem witness_TraceRecordPerFetch : CanFetch demo ∧ ¬ CanFetch { demo with pc := 8 } := by
  unfold CanFetch; decide
theorem witness_LaunchGivesTheResetState :
    (∃ s, loadImage referenceConfig 0 [1, 1, 1, 1] = some s) ∧ (∃ s, loadImage referenceConfig 0 [1] = some s) ∧
      loadImage { referenceConfig with imageMaxBytes := 0 } 0 [1] = none := ⟨⟨_, rfl⟩, ⟨_, rfl⟩, rfl⟩
theorem witness_LaunchMeetsTheInvariant :
    referenceConfig.wf ∧ ∃ s, loadImage referenceConfig 7 [1, 1, 1, 1] = some s := ⟨by decide, _, rfl⟩
theorem witness_StepKeepsTheInvariant : Inv demo ∧ ∃ t, step demo = .next t := ⟨demo_inv, _, rfl⟩
theorem witness_ReachableStatesMeetTheInvariant : Reachable (preload (launch referenceConfig 0 [1, 1, 1, 1]) [(1, 4)]) :=
  .launched referenceConfig 0 [1, 1, 1, 1] [(1, 4)] _ (by decide) rfl
theorem witness_MoreFuelKeepsTheVerdict : ∀ u, runFuel 1 demo ≠ .noVerdict u := fun _ h => by cases h
theorem witness_DecodeOfEncode : smallConfig.wf ∧ (Instr.cmp 7 0).wf smallConfig = true := by decide
theorem witness_EncodeOfDecode : decode referenceConfig ⟨0x0F, 0xFF, 0xFF, 0xFF⟩ = .ok (.jmp 0xFFFFFF) := rfl
theorem witness_DecodePartitionsAllWords :
    smallConfig.wf ∧ smallConfig.has .add = true ∧ smallConfig.opcodes.opOf .add = (⟨2, 7, 8, 0⟩ : InstrWord).b0 := by
  decide
theorem witness_DecodePartitionsAllWords_formed :
    smallConfig.wf ∧ smallConfig.has .add = true ∧ ¬ MalformedWord smallConfig Mnemonic.add.shape ⟨2, 7, 7, 0⟩ :=
  ⟨by decide, rfl, by
    rintro (⟨h, _⟩ | ⟨r, hr, hn⟩ | ⟨h, _⟩)
    · cases h
    · revert hn
      revert r
      decide
    · cases h⟩
theorem witness_PlacedWordRuns :
    State.reset.cfg = referenceConfig ∧ decodeTableWord 32 0x02010203 = some (.add 1 2 3) := ⟨rfl, by decide⟩
/-- The source of the assembler's witnesses: a label line, an empty line and an instruction line. -/
theorem witness_AssembledLinesArePlaced :
    ∃ r, assemble referenceConfig ".a\n\njmp .a".toList = .ok r ∧
      (splitLines ".a\n\njmp .a".toList)[1]? = some [] ∧ lineForm [] = .empty := ⟨_, rfl, by decide, rfl⟩
theorem witness_AssembledLinesArePlaced_label :
    (splitLines ".a\n\njmp .a".toList)[0]? = some ".a".toList ∧ lineForm ".a".toList = .label ['a'] := by decide
theorem witness_LabelsAreLineAddresses :
    ∃ image, assemble referenceConfig "noop\n.a\njmp .a".toList = .ok (image, [(['a'], 4)]) := ⟨_, rfl⟩
theorem witness_AssembledWordsDecode :
    referenceConfig.wf ∧ (∃ r, assemble referenceConfig "add 15 0 1".toList = .ok r) ∧
      0 < (splitLines "add 15 0 1".toList).length := ⟨by decide, ⟨_, rfl⟩, by decide⟩
theorem witness_DisassemblyAssemblesBack : referenceConfig.wf ∧ (Instr.store 15 0xBEEF).wf referenceConfig = true := by
  decide

end Sys2Proof.Tests
end

section
/-! PROOFS of the statements about the state: register writes (R31) and the next-pc rule (R42). -/

namespace Sys2Proof.Proofs

open Sys2Proof Sys2Proof.Machine Sys2Proof.Safety Sys2Proof.Laws

/-! ### Register writes -/

/-- Only r0 can be hardwired, and only where its parameter says so (R33). -/
theorem hardwired_eq_false_iff {s : State} {i : RegIx} :
    hardwired s i = false ↔ (i = 0 → s.cfg.r0Hardwired = false) := by
  cases h : s.cfg.r0Hardwired <;> simp [hardwired, h]

/-- The register written reads as the integer reduced mod 2^W (R31), as an equation of integers: the reduced value is
not negative, so reading it as a natural number loses nothing. -/
theorem readReg_writeReg_same_int {s : State} {i : RegIx} (v : Int) (hw : hardwired s i = false)
    (h : i.toNat < s.regs.length) :
    (readReg (writeReg s i v) i : Int) = v % (2 : Int) ^ s.cfg.width := by
  have hnonneg : 0 ≤ v % (2 : Int) ^ s.cfg.width := Int.emod_nonneg v (by positivity)
  rw [readReg_writeReg_same v hw h, Config.modulus]
  push_cast
  exact Int.toNat_of_nonneg hnonneg

/-- Settles O44: the register written reads as the reduced value, every other register as before. -/
theorem registerWriteTruncates : Obligations.RegisterWriteTruncates := by
  intro s i v hlen h0
  exact ⟨readReg_writeReg_same_int v (hardwired_eq_false_iff.mpr h0) hlen,
    fun _ hj => readReg_writeReg_other s v hj⟩

/-! ### Straight-line instructions -/

/-- What a straight-line instruction can answer (R113): one register write, one store or nothing, then pc + 4; or
`halt`'s answer. -/
theorem straightLine_cases {i : Instr} {s t : State} (hi : StraightLine i = true) (h : exec i s = .next t) :
    (∃ rd v, t = advance (writeReg s rd v)) ∨ (∃ a v, t = advance (memWrite s a v)) ∨ t = advance s ∨
      (i = .halt ∧ t = setHalted (advance s)) := by
  cases i with
  | noop => exact .inr (.inr (.inl (Host.Outcome.next.inj h).symm))
  | halt => exact .inr (.inr (.inr ⟨rfl, (Host.Outcome.next.inj h).symm⟩))
  | add | sub | and | or | xor | addi | subi | andi | ori | xori => exact .inl ⟨_, _, aluOp_next h⟩
  | store => exact .inr (.inl ⟨_, _, (Host.Outcome.next.inj h).symm⟩)
  | load | cmp => exact .inl ⟨_, _, (Host.Outcome.next.inj h).symm⟩
  | jmp | jeq | jne | jlt | jgt | jal | ret => cases hi

/-- A straight-line instruction goes to pc + 4 (R42). -/
theorem straightLine_pc {i : Instr} {s t : State} (hi : StraightLine i = true) (h : exec i s = .next t) :
    t.pc = s.pc + 4 := by
  obtain ⟨rd, v, rfl⟩ | ⟨a, v, rfl⟩ | rfl | ⟨-, rfl⟩ := straightLine_cases hi h <;> simp

/-! ### The conditions of the conditional jumps -/

/-- `jeq` is taken when x[1] is CODE_EQ (R182). -/
theorem flagEqual_iff (s : State) : flagEqual s = true ↔ readReg s 1 = s.cfg.codes.eq := by
  simp [flagEqual, flagValue, flagReg]

/-- `jne` is taken when x[1] is anything but CODE_EQ (R183). -/
theorem flagNotEqual_iff (s : State) : flagNotEqual s = true ↔ readReg s 1 ≠ s.cfg.codes.eq := by
  rw [flagNotEqual, Bool.not_eq_true', ← Bool.not_eq_true, flagEqual_iff]

/-- `jlt` is taken when x[1] is CODE_LT (R184). -/
theorem flagLess_iff (s : State) : flagLess s = true ↔ readReg s 1 = s.cfg.codes.lt := by
  simp [flagLess, flagValue, flagReg]

/-- `jgt` is taken when x[1] is CODE_GT (R185). -/
theorem flagGreater_iff (s : State) : flagGreater s = true ↔ readReg s 1 = s.cfg.codes.gt := by
  simp [flagGreater, flagValue, flagReg]

/-! ### Control transfers -/

/-- An instruction that answers a transfer goes to the target when the transfer's condition holds and to pc + 4 when it
does not (R180). -/
theorem pc_of_next_transfer {i : Instr} {s t : State} {target : Target} {b : Bool} {p : Prop} [Decidable p]
    (hexec : exec i s = .next (transfer b target s)) (hb : b = true ↔ p) (h : exec i s = .next t) :
    t.pc = if p then target.setWidth 32 else s.pc + 4 := by
  obtain rfl : transfer b target s = t := Host.Outcome.next.inj (hexec.symm.trans h)
  simp [transfer_eq_setPc, targetPc, hb]

/-- `jmp` goes to its target (R181). -/
theorem jmp_pc {target : Target} {s t : State} (h : exec (.jmp target) s = .next t) : t.pc = target.setWidth 32 := by
  obtain rfl : transfer true target s = t := Host.Outcome.next.inj h
  rfl

/-- `jal` on a stack that is not full goes to its target (R186). -/
theorem jal_pc {target : Target} {s t : State} (h : exec (.jal target) s = .next t)
    (hroom : s.ras.length < s.cfg.rasDepth) : t.pc = target.setWidth 32 := by
  obtain ⟨hfull, -⟩ | ⟨-, hjump⟩ := execJal_cases target s
  · have hnotFull : rasFull s = false := by simpa [rasFull] using hroom
    simp [hnotFull] at hfull
  · obtain rfl : setPc (push s s.pc) (targetPc target) = t := Host.Outcome.next.inj (hjump.symm.trans h)
    rfl

/-- `ret` on a stack with an entry goes to the popped address itself (R187). -/
theorem ret_pc {s t : State} {a : PcWord} {l : List PcWord} (h : exec .ret s = .next t) (hras : s.ras = a :: l) :
    t.pc = a := by
  obtain ⟨hempty, -⟩ | ⟨b, m, hentry, hpop⟩ := execRet_cases s
  · simp [hras] at hempty
  · obtain ⟨rfl, rfl⟩ : a = b ∧ l = m := by simpa [hras] using hentry
    obtain rfl : setPc (dropTop s) a = t := Host.Outcome.next.inj (hpop.symm.trans h)
    rfl

/-- Settles O40: one conjunct for the straight-line class and one for each control transfer. -/
theorem nextPcRule : Obligations.NextPcRule := by
  intro s t
  refine ⟨fun i => straightLine_pc, fun target => jmp_pc, fun target => jal_pc, fun a l => ret_pc,
    fun target => pc_of_next_transfer rfl (flagEqual_iff s), fun target h => ?jne,
    fun target => pc_of_next_transfer rfl (flagLess_iff s), fun target => pc_of_next_transfer rfl (flagGreater_iff s)⟩
  case jne =>
    have hpc := pc_of_next_transfer rfl (flagNotEqual_iff s) h
    rwa [ite_not] at hpc

end Sys2Proof.Proofs
end

section
/-! PROOFS of the statements about the jumps: `jmp` (R181), `jne` (R183), `jlt` (R184) and `jgt` (R185). -/

namespace Sys2Proof.Proofs

open Sys2Proof Sys2Proof.Machine Sys2Proof.Safety Sys2Proof.Laws

/-! ### Decoding an encoded word -/

/-- Every revision has every mnemonic but `jal` and `ret` (R3, R101). -/
theorem has_of_ne_jal_ret (c : Config) {m : Mnemonic} (hjal : m ≠ .jal) (hret : m ≠ .ret) : c.has m = true := by
  unfold Config.has
  split
  · exact absurd rfl hjal
  · exact absurd rfl hret
  · rfl

/-- The word of an instruction of the revision decodes to it when its register fields are legal and is malformed when
they are not (R111): the lookup finds the mnemonic by its opcode byte, and the word shows the instruction's fields. -/
theorem decodesTo_encode {c : Config} {i : Instr} (hc : c.wf) (hhas : c.has i.mnemonic = true)
    (hfields : EncodedFields.Statement i) : DecodesTo c (encode c i) i := by
  obtain ⟨hopcode, hmalformed, hbuild⟩ := hfields c
  have hlookup : c.opLookup (encode c i).b0 = some i.mnemonic := hopcode ▸ opLookup_opOf hc hhas
  unfold DecodesTo
  obtain ⟨hnone, -⟩ | ⟨m, hm, hdecode⟩ := decode_cases c (encode c i)
  · simp [hlookup] at hnone
  · obtain rfl : i.mnemonic = m := Option.some.inj (hlookup.symm.trans hm)
    obtain ⟨hbad, herror⟩ | ⟨hgood, hok⟩ := hdecode
    · have hwf : i.wf c = false := by simpa [hmalformed hhas] using hbad
      simp [hwf, herror]
    · have hwf : i.wf c = true := by simpa [hmalformed hhas] using hgood
      simp [hwf, hok, hbuild]

/-- An instruction that is no call and no return decodes from its word in both revisions. -/
theorem decodesTo_encode_of_ne_jal_ret {c : Config} {i : Instr} (hc : c.wf) (hfields : EncodedFields.Statement i)
    (hjal : i.mnemonic ≠ .jal) (hret : i.mnemonic ≠ .ret) : DecodesTo c (encode c i) i :=
  decodesTo_encode hc (has_of_ne_jal_ret c hjal hret) hfields

/-! ### The frame of a jump -/

/-- A write of the pc changes the pc alone: this is all that a jump does to the state (R180). -/
theorem onlyPc_setPc (s : State) (p : PcWord) : OnlyPc s (setPc s p) p :=
  ⟨fun _ => readReg_setPc s p _, fun _ => memRead_setPc s p _, setPc_ras s p, ⟨rfl, rfl, rfl⟩, setPc_pc s p,
    setPc_status s p⟩

/-- A transfer changes the pc alone: to the target when the condition that its flag decides holds, to pc + 4 when it
does not (R180). -/
theorem onlyPc_transfer (s : State) (target : Target) {b : Bool} {p : Prop} [Decidable p] (hb : b = true ↔ p) :
    OnlyPc s (transfer b target s) (if p then target.setWidth 32 else s.pc + 4) := by
  have hpc : (if b then targetPc target else s.pc + 4) = if p then target.setWidth 32 else s.pc + 4 := by
    simp [hb, targetPc]
  rw [transfer_eq_setPc, hpc]
  exact onlyPc_setPc s _

/-! ### The jumps -/

/-- Settles O14: the transfer of `jmp` is always taken. -/
theorem jmpTakesTarget : Obligations.JmpTakesTarget := by
  intro s target hinv
  have htaken : OnlyPc s (transfer true target s) (target.setWidth 32) := by
    simpa using onlyPc_transfer s target (p := True) (by simp)
  exact ⟨decodesTo_encode_of_ne_jal_ret hinv.cfgWf (EncodedFields.jmp target) nofun nofun, _, rfl, htaken⟩

/-- Settles O16: the transfer of `jne` is taken as NotEqual decides, the negation of Equal. -/
theorem jneTakenIffNotEqual : Obligations.JneTakenIffNotEqual := by
  intro s target hinv
  exact ⟨decodesTo_encode_of_ne_jal_ret hinv.cfgWf (EncodedFields.jne target) nofun nofun, _, rfl,
    onlyPc_transfer s target (flagNotEqual_iff s)⟩

/-- Settles O17: the transfer of `jlt` is taken as Less decides. -/
theorem jltTakenIffLess : Obligations.JltTakenIffLess := by
  intro s target hinv
  exact ⟨decodesTo_encode_of_ne_jal_ret hinv.cfgWf (EncodedFields.jlt target) nofun nofun, _, rfl,
    onlyPc_transfer s target (flagLess_iff s)⟩

/-- Settles O18: the transfer of `jgt` is taken as Greater decides. -/
theorem jgtTakenIffGreater : Obligations.JgtTakenIffGreater := by
  intro s target hinv
  exact ⟨decodesTo_encode_of_ne_jal_ret hinv.cfgWf (EncodedFields.jgt target) nofun nofun, _, rfl,
    onlyPc_transfer s target (flagGreater_iff s)⟩

end Sys2Proof.Proofs
end

section
/-! PROOFS of the statements about the system instructions: `halt` (R200) and `noop` (R201). -/

namespace Sys2Proof.Proofs

open Sys2Proof Sys2Proof.Machine Sys2Proof.Safety Sys2Proof.Laws

/-! ### Decoding a nullary word -/

/-- A nullary word is well formed when its operand bytes all repeat the opcode byte (R100, R108). -/
theorem malformed_nullary_eq_false_iff {c : Config} {w : InstrWord} :
    malformed c .nullary w = false ↔ w.b1 = w.b0 ∧ w.b2 = w.b0 ∧ w.b3 = w.b0 := by
  simp [malformed, and_assoc]

/-- A word under the opcode of a nullary mnemonic of the revision decodes to its instruction when its operand bytes all
repeat the opcode byte and is malformed when one does not (R108, R111). -/
theorem decode_of_nullary {c : Config} {m : Mnemonic} (b1 b2 b3 : Byte) (hc : c.wf) (hhas : c.has m = true)
    (hshape : m.shape = .nullary) :
    decode c ⟨c.opcodes.opOf m, b1, b2, b3⟩ =
      if b1 = c.opcodes.opOf m ∧ b2 = c.opcodes.opOf m ∧ b3 = c.opcodes.opOf m
      then .ok (m.build ⟨c.opcodes.opOf m, b1, b2, b3⟩) else .error .malformed := by
  have hlookup := opLookup_opOf hc hhas
  obtain ⟨hnone, -⟩ | ⟨n, hn, hdecode⟩ := decode_cases c ⟨c.opcodes.opOf m, b1, b2, b3⟩
  · simp [hlookup] at hnone
  · obtain rfl : m = n := Option.some.inj (hlookup.symm.trans hn)
    rw [hshape] at hdecode
    obtain ⟨hbad, herror⟩ | ⟨hgood, hok⟩ := hdecode
    · have hdiffer := mt malformed_nullary_eq_false_iff.mpr ((Bool.not_eq_false _).mpr hbad)
      rw [herror, if_neg hdiffer]
    · rw [hok, if_pos (malformed_nullary_eq_false_iff.mp hgood)]

/-! ### Stopped machines -/

/-- Only a running machine has a next state (R47). -/
theorem step_ne_next_of_not_running {s : State} (h : s.status ≠ .running) (t : State) : step s ≠ .next t := by
  intro hnext
  obtain ⟨hrunning, -⟩ := step_next_cases hnext
  exact h hrunning

/-! ### The system instructions -/

/-- Advancing the pc changes nothing else (R42). -/
theorem onlyPc_advance (s : State) : OnlyPc s (advance s) (s.pc + 4) := onlyPc_setPc s (s.pc + 4)

/-- Settles O24: `halt` advances as `noop` does and sets the status, which no step leaves. -/
theorem haltStopsTheRun : Obligations.HaltStopsTheRun := by
  intro s b1 b2 b3 hinv
  obtain ⟨hregs, hmem, hras, hfixed, hpc, -⟩ := onlyPc_advance s
  have hstopped : (setHalted (advance s)).status ≠ .running := by simp
  exact ⟨decode_of_nullary (m := .halt) b1 b2 b3 hinv.cfgWf (has_of_ne_jal_ret _ nofun nofun) rfl,
    setHalted (advance s), rfl, hregs, hmem, hras, hfixed, hpc, setHalted_status _,
    step_ne_next_of_not_running hstopped⟩

/-- Settles O25: `noop` answers the advanced state. -/
theorem noopOnlyAdvances : Obligations.NoopOnlyAdvances := by
  intro s b1 b2 b3 hinv
  exact ⟨decode_of_nullary (m := .noop) b1 b2 b3 hinv.cfgWf (has_of_ne_jal_ret _ nofun nofun) rfl,
    advance s, rfl, onlyPc_advance s⟩

end Sys2Proof.Proofs
end

section
/-! PROOFS of the statements about faults: fault entry (R215), UnknownOpcode (R213) and StackUnderflow (R216). -/

namespace Sys2Proof.Proofs

open Sys2Proof Sys2Proof.Machine Sys2Proof.Safety Sys2Proof.Laws

/-! ### Fault entry -/

/-- Taking a fault is the fault entry of R215: the status takes the cause and all else stays. -/
theorem faultEntered_raiseFault (s : State) (c : FaultCause) : FaultEntered s (raiseFault s c) c :=
  ⟨readReg_raiseFault s c, memRead_raiseFault s c, raiseFault_ras s c,
    ⟨raiseFault_image s c, raiseFault_cfg s c, raiseFault_memDraw s c⟩, raiseFault_pc s c, raiseFault_status s c⟩

/-! ### Decode faults -/

/-- Where the word at the pc can be fetched, a step whose decode refuses that word takes the fault of the refusal
(R114, R213, R214). -/
theorem step_of_decode_error {s : State} {e : DecodeError} (hfetch : CanFetch s)
    (hdecode : decode s.cfg (imageWord s.image s.pc.toNat) = .error e) :
    step s = .next (raiseFault s (decodeFault s.pc (imageWord s.image s.pc.toNat) e)) := by
  obtain ⟨hrunning, haligned, hinside⟩ := hfetch
  have hword : fetch s = .ok (imageWord s.image s.pc.toNat) := fetch_ok_iff.mpr ⟨haligned, hinside, rfl⟩
  exact step_of_fault hrunning (fetchDecode_error_iff.mpr (.inr ⟨_, e, hword, hdecode, rfl⟩))

/-- A word whose first byte no mnemonic of the revision owns is refused as an unknown opcode, before its other bytes
are looked at (R107, R111). -/
theorem decode_of_unknown_opcode {c : Config} {w : InstrWord}
    (h : ∀ m : Mnemonic, c.has m = true → c.opcodes.opOf m ≠ w.b0) : decode c w = .error .unknownOpcode := by
  have hlookup : c.opLookup w.b0 = none := opLookup_none.mpr h
  obtain ⟨-, hunknown⟩ | ⟨m, hfound, -⟩ := decode_cases c w
  · exact hunknown
  · simp [hlookup] at hfound

/-- Settles O27: decode refuses the fetched word, and the step takes that refusal's fault. -/
theorem unknownOpcodeFaults : Obligations.UnknownOpcodeFaults := by
  intro s hfetch hunknown
  exact ⟨_, step_of_decode_error hfetch (decode_of_unknown_opcode hunknown), faultEntered_raiseFault s _, rfl, rfl⟩

/-! ### Stack underflow -/

/-- Settles O22: an empty stack leaves `ret` its fault only, for its pop needs an entry. -/
theorem retOnEmptyStackFaults : Obligations.RetOnEmptyStackFaults := by
  intro s hempty
  obtain ⟨-, hfault⟩ | ⟨a, l, hentry, -⟩ := execRet_cases s
  · exact ⟨_, hfault, faultEntered_raiseFault s _, rfl, rfl⟩
  · simp [hempty] at hentry

end Sys2Proof.Proofs
end

section
/-! PROOFS of the statements about the encoding: the round trips of encode and decode (R109), the partition of all words
(R107, R108), the Malformed fault (R214) and the reference words (R101). -/

namespace Sys2Proof.Proofs

open Sys2Proof Sys2Proof.Machine Sys2Proof.Safety Sys2Proof.Laws

/-! ### What an encoded word shows -/

/-- The family EncodedFields over all instructions. -/
theorem encodedFields (i : Instr) : EncodedFields.Statement i := by
  cases i with
  | noop => exact EncodedFields.noop
  | halt => exact EncodedFields.halt
  | add rs1 rs2 rd => exact EncodedFields.add rs1 rs2 rd
  | sub rs1 rs2 rd => exact EncodedFields.sub rs1 rs2 rd
  | and rs1 rs2 rd => exact EncodedFields.and rs1 rs2 rd
  | or rs1 rs2 rd => exact EncodedFields.or rs1 rs2 rd
  | xor rs1 rs2 rd => exact EncodedFields.xor rs1 rs2 rd
  | addi imm rs2 rd => exact EncodedFields.addi imm rs2 rd
  | subi imm rs2 rd => exact EncodedFields.subi imm rs2 rd
  | andi imm rs2 rd => exact EncodedFields.andi imm rs2 rd
  | ori imm rs2 rd => exact EncodedFields.ori imm rs2 rd
  | xori imm rs2 rd => exact EncodedFields.xori imm rs2 rd
  | store r a => exact EncodedFields.store r a
  | load r a => exact EncodedFields.load r a
  | cmp rs1 rs2 => exact EncodedFields.cmp rs1 rs2
  | jmp target => exact EncodedFields.jmp target
  | jeq target => exact EncodedFields.jeq target
  | jne target => exact EncodedFields.jne target
  | jlt target => exact EncodedFields.jlt target
  | jgt target => exact EncodedFields.jgt target
  | jal target => exact EncodedFields.jal target
  | ret => exact EncodedFields.ret

/-- A well-formed instruction is one of the revision (R101). -/
theorem has_of_wf {c : Config} {i : Instr} (h : i.wf c = true) : c.has i.mnemonic = true := by
  cases i with
  | jal target => exact h
  | ret => exact h
  | _ => exact has_of_ne_jal_ret c nofun nofun

/-- Settles O52: the word shows the instruction's fields, and a well-formed instruction has no illegal one. -/
theorem decodeOfEncode : Obligations.DecodeOfEncode := by
  intro c i hc hwf
  have hdecodes : DecodesTo c (encode c i) i := decodesTo_encode hc (has_of_wf hwf) (encodedFields i)
  rwa [DecodesTo, if_pos hwf] at hdecodes

/-! ### What a decoded word is -/

/-- The instruction built for a mnemonic is of that mnemonic. -/
theorem build_mnemonic (m : Mnemonic) (w : InstrWord) : (m.build w).mnemonic = m := by
  cases m <;> rfl

/-- A word whose operand bytes all repeat its opcode byte is that byte's nullary word (R100). -/
theorem nullaryWord_of_formed {c : Config} {w : InstrWord} (h : malformed c .nullary w = false) :
    nullaryWord w.b0 = w := by
  obtain ⟨h1, h2, h3⟩ := malformed_nullary_eq_false_iff.mp h
  calc nullaryWord w.b0 = ⟨w.b0, w.b1, w.b2, w.b3⟩ := by rw [h1, h2, h3, nullaryWord]
    _ = w := rfl

/-- A word that breaks no rule of its shape is the encoded word of the instruction built from it (R109). -/
theorem encode_build {c : Config} {m : Mnemonic} {w : InstrWord} (hopcode : c.opcodes.opOf m = w.b0)
    (hformed : malformed c m.shape w = false) : encode c (m.build w) = w := by
  cases m with
  | noop | halt | ret => exact (congrArg nullaryWord hopcode).trans (nullaryWord_of_formed hformed)
  | store | load => exact (congrArg (raWord · w.b1 w.addr) hopcode).trans (raWord_of_fields w)
  | jmp | jeq | jne | jlt | jgt | jal =>
    exact (congrArg (jumpWord · w.target) hopcode).trans (jumpWord_of_fields w)
  | cmp =>
    have hlast : w.b3 = 0 := by
      simp only [Mnemonic.shape, malformed, Bool.not_eq_false', Bool.and_eq_true, beq_iff_eq] at hformed
      exact hformed.2
    obtain ⟨b0, b1, b2, b3⟩ := w
    obtain rfl : b3 = 0 := hlast
    exact congrArg (InstrWord.mk · b1 b2 0) hopcode
  | add | sub | and | or | xor | addi | subi | andi | ori | xori =>
    exact congrArg (InstrWord.mk · w.b1 w.b2 w.b3) hopcode

/-- What a word that decodes has passed (R111): its opcode is a mnemonic's of the revision and it breaks no rule of that
mnemonic's shape. -/
theorem decode_ok_cases {c : Config} {w : InstrWord} {i : Instr} (h : decode c w = .ok i) :
    c.has i.mnemonic = true ∧ c.opcodes.opOf i.mnemonic = w.b0 ∧ malformed c i.mnemonic.shape w = false ∧
      i = i.mnemonic.build w := by
  obtain ⟨-, herror⟩ | ⟨m, hm, ⟨-, herror⟩ | ⟨hformed, hok⟩⟩ := decode_cases c w
  · simp [herror] at h
  · simp [herror] at h
  · obtain rfl : m.build w = i := Except.ok.inj (hok.symm.trans h)
    obtain ⟨hhas, hopcode⟩ := opLookup_some hm
    rw [build_mnemonic]
    exact ⟨hhas, hopcode, hformed, rfl⟩

/-- Settles O53: the built instruction encodes to the word, so its fields are legal as the word's bytes are. -/
theorem encodeOfDecode : Obligations.EncodeOfDecode := by
  intro c w i h
  obtain ⟨hhas, hopcode, hformed, hbuild⟩ := decode_ok_cases h
  have hword : encode c i = w := by
    rw [hbuild]
    exact encode_build hopcode hformed
  obtain ⟨-, hmalformed, -⟩ := encodedFields i c
  have hwf := hmalformed hhas
  rw [hword, hformed] at hwf
  exact ⟨hword, by simpa using hwf.symm⟩

/-! ### The partition of all words -/

/-- The decoder's check of a shape is R108 as it is written. -/
theorem malformed_iff {c : Config} {sh : Shape} {w : InstrWord} :
    malformed c sh w = true ↔ MalformedWord c sh w := by
  cases sh with
  | rrr | irr | ra | rr => simp [malformed, MalformedWord, RegBytes, Config.isReg, or_assoc]
  | jumpTarget => simp [malformed, MalformedWord, RegBytes]
  | nullary => simp [malformed, MalformedWord, RegBytes, or_assoc]

/-- A word under the opcode of a mnemonic of the revision is malformed or that mnemonic's instruction (R111). -/
theorem decode_of_opcode {c : Config} {m : Mnemonic} {w : InstrWord} (hc : c.wf) (hhas : c.has m = true)
    (hopcode : c.opcodes.opOf m = w.b0) :
    decode c w = if malformed c m.shape w = true then .error .malformed else .ok (m.build w) := by
  have hlookup : c.opLookup w.b0 = some m := hopcode ▸ opLookup_opOf hc hhas
  obtain ⟨hnone, -⟩ | ⟨n, hn, hdecode⟩ := decode_cases c w
  · simp [hlookup] at hnone
  · obtain rfl : m = n := Option.some.inj (hlookup.symm.trans hn)
    obtain ⟨hbad, herror⟩ | ⟨hgood, hok⟩ := hdecode
    · rw [herror, if_pos hbad]
    · rw [hok, if_neg (by simp [hgood])]

/-- A word is refused as unknown exactly when its lookup finds no mnemonic (R107). -/
theorem decode_unknown_iff {c : Config} {w : InstrWord} :
    decode c w = .error .unknownOpcode ↔ ∀ m : Mnemonic, c.has m = true → c.opcodes.opOf m ≠ w.b0 := by
  refine ⟨fun hunknown => opLookup_none.mp ?_, decode_of_unknown_opcode⟩
  obtain ⟨hnone, -⟩ | ⟨m, -, ⟨-, hother⟩ | ⟨-, hother⟩⟩ := decode_cases c w
  · exact hnone
  · simp [hother] at hunknown
  · simp [hother] at hunknown

/-- Settles O54: the lookup decides between unknown and known, the shape's check between malformed and instruction. -/
theorem decodePartitionsAllWords : Obligations.DecodePartitionsAllWords := by
  intro c w hc
  refine ⟨decode_unknown_iff, fun m hhas hopcode => ?_⟩
  rw [decode_of_opcode hc hhas hopcode, ← malformed_iff]
  cases malformed c m.shape w with
  | true => simp
  | false => simp [build_mnemonic]

/-- Settles O28: decode refuses the fetched word as malformed, and the step takes that refusal's fault. -/
theorem malformedWordFaults : Obligations.MalformedWordFaults := by
  intro s m hc hfetch hhas hopcode hbad
  have hdecode : decode s.cfg (imageWord s.image s.pc.toNat) = .error .malformed := by
    rw [decode_of_opcode hc hhas hopcode, if_pos (malformed_iff.mpr hbad)]
  exact ⟨_, step_of_decode_error hfetch hdecode, faultEntered_raiseFault s _, rfl, rfl⟩

/-! ### Words of the reference encoding -/

/-- Settles O55: each word is a closed term, so each clause is evaluated. -/
theorem referenceWordsDecode : Obligations.ReferenceWordsDecode := by
  unfold Obligations.ReferenceWordsDecode
  decide

end Sys2Proof.Proofs
end

section
/-! PROOFS of the statements about what a step may do at all: which instruction changes which part of the state, faults
and the end of a run. -/

namespace Sys2Proof.Proofs

open Sys2Proof Sys2Proof.Machine Sys2Proof.Safety Sys2Proof.Laws

/-! ### The effect of an instruction, said once -/

/-- What an instruction can answer from a state (R112, R113): one register write or a change of the pc alone, whichever
the instruction; and, each for its own instruction and under its guard, the store, the stop, the push, the pop and the
two stack faults. -/
inductive Effect (s : State) : Instr → State → Prop where
  | wroteReg (i : Instr) (rd : RegIx) (v : Int) : Effect s i (advance (writeReg s rd v))
  | stored (r : RegIx) (a : CellAddr) : Effect s (.store r a) (advance (memWrite s a (readReg s r)))
  | stopped : Effect s .halt (setHalted (advance s))
  | moved (i : Instr) (p : PcWord) : Effect s i (setPc s p)
  | called (target : Target) (hroom : rasFull s = false) :
      Effect s (.jal target) (setPc (push s s.pc) (targetPc target))
  | overflowed (target : Target) (hfull : rasFull s = true) :
      Effect s (.jal target) (raiseFault s (.stackOverflow s.pc))
  | returned (a : PcWord) (l : List PcWord) (hentry : s.ras = a :: l) : Effect s .ret (setPc (dropTop s) a)
  | underflowed (hempty : s.ras = []) : Effect s .ret (raiseFault s (.stackUnderflow s.pc))

/-- A transfer moves the pc and does nothing else (R180). -/
theorem effect_transfer (s : State) (i : Instr) (b : Bool) (target : Target) : Effect s i (transfer b target s) := by
  rw [transfer_eq_setPc]
  exact .moved i _

/-- Every instruction completes, with one of the effects (R109, R112). -/
theorem exec_effect (i : Instr) (s : State) : ∃ t, exec i s = .next t ∧ Effect s i t := by
  cases i with
  | noop => exact ⟨_, rfl, .moved _ _⟩
  | halt => exact ⟨_, rfl, .stopped⟩
  | add | sub | and | or | xor | addi | subi | andi | ori | xori | load | cmp => exact ⟨_, rfl, .wroteReg _ _ _⟩
  | store r a => exact ⟨_, rfl, .stored r a⟩
  | jmp | jeq | jne | jlt | jgt => exact ⟨_, rfl, effect_transfer s _ _ _⟩
  | jal target =>
    obtain ⟨hfull, hfault⟩ | ⟨hroom, hjump⟩ := execJal_cases target s
    · exact ⟨_, hfault, .overflowed target hfull⟩
    · exact ⟨_, hjump, .called target hroom⟩
  | ret =>
    obtain ⟨hempty, hfault⟩ | ⟨a, l, hentry, hpop⟩ := execRet_cases s
    · exact ⟨_, hfault, .underflowed hempty⟩
    · exact ⟨_, hpop, .returned a l hentry⟩

/-- What an instruction answers is one of its effects. -/
theorem effect_of_exec {i : Instr} {s t : State} (h : exec i s = .next t) : Effect s i t := by
  obtain ⟨u, hu, heffect⟩ := exec_effect i s
  obtain rfl : u = t := Host.Outcome.next.inj (hu.symm.trans h)
  exact heffect

/-! ### The stack's guards -/

/-- `jal` on a full stack takes the overflow fault (R217). -/
theorem exec_jal_of_full {s : State} (target : Target) (h : rasFull s = true) :
    exec (.jal target) s = .next (raiseFault s (.stackOverflow s.pc)) := by
  obtain ⟨-, hfault⟩ | ⟨hroom, -⟩ := execJal_cases target s
  · exact hfault
  · simp [h] at hroom

/-- `jal` on a stack that is not full pushes and jumps (R186). -/
theorem exec_jal_of_room {s : State} (target : Target) (h : rasFull s = false) :
    exec (.jal target) s = .next (setPc (push s s.pc) (targetPc target)) := by
  obtain ⟨hfull, -⟩ | ⟨-, hjump⟩ := execJal_cases target s
  · simp [h] at hfull
  · exact hjump

/-- `ret` on an empty stack takes the underflow fault (R216). -/
theorem exec_ret_of_empty {s : State} (h : s.ras = []) :
    exec .ret s = .next (raiseFault s (.stackUnderflow s.pc)) := by
  obtain ⟨-, hfault⟩ | ⟨a, l, hentry, -⟩ := execRet_cases s
  · exact hfault
  · simp [h] at hentry

/-- `ret` on a stack with an entry pops it into the pc (R187). -/
theorem exec_ret_of_entry {s : State} {a : PcWord} {l : List PcWord} (h : s.ras = a :: l) :
    exec .ret s = .next (setPc (dropTop s) a) := by
  obtain ⟨hempty, -⟩ | ⟨b, m, hentry, hpop⟩ := execRet_cases s
  · simp [h] at hempty
  · obtain ⟨rfl, -⟩ : a = b ∧ l = m := by simpa [h] using hentry
    exact hpop

/-! ### What every instruction leaves unchanged -/

/-- Settles O35: of the effects only a store reaches a cell, and it reaches its own alone. -/
theorem onlyStoreChangesMemory : Obligations.OnlyStoreChangesMemory := by
  intro i s t a h hchanged
  cases effect_of_exec h with
  | stored r b =>
    by_cases hb : a = b
    · exact ⟨r, hb ▸ rfl⟩
    · exact absurd (memRead_memWrite_other s (readReg s r) hb) hchanged
  | _ => exact absurd rfl hchanged

/-- Settles O37: the push and the pop are the effects that reach the stack. -/
theorem onlyCallAndReturnTouchTheStack : Obligations.OnlyCallAndReturnTouchTheStack := by
  intro i s t h hchanged
  cases effect_of_exec h with
  | called target => exact .inl ⟨target, rfl, rfl⟩
  | returned a l hentry => exact .inr ⟨rfl, a, by simp [hentry]⟩
  | _ => exact absurd rfl hchanged

/-- Settles O38: the register of the one write, or any register where there is no write. -/
theorem atMostOneRegisterChanges : Obligations.AtMostOneRegisterChanges := by
  intro i s t h
  cases effect_of_exec h with
  | wroteReg _ rd v => exact ⟨rd, fun j hj => readReg_writeReg_other s v hj⟩
  | _ => exact ⟨0, fun _ _ => rfl⟩

/-- No effect reaches the image, the parameters or the MEM_INIT draw. -/
theorem Effect.sameFixed {i : Instr} {s t : State} (h : Effect s i t) : SameFixed s t := by
  cases h <;> exact ⟨rfl, rfl, rfl⟩

/-- Settles O39: fault entry and the effects of the instructions all leave them. -/
theorem imageAndParametersNeverChange : Obligations.ImageAndParametersNeverChange := by
  intro s t h
  obtain ⟨-, ⟨c, -, rfl⟩ | ⟨i, -, hexec⟩⟩ := step_next_cases h
  · exact ⟨rfl, rfl, rfl⟩
  · exact (effect_of_exec hexec).sameFixed

/-! ### Independence of the data memory -/

/-- The state with another data memory and another MEM_INIT draw. -/
def withMemory (s : State) (m : Memory) (draw : Nat) : State := { s with mem := m, memDraw := draw }

/-- A transfer does not see the data memory. -/
theorem transfer_withMemory (s : State) (b : Bool) (target : Target) (m : Memory) (draw : Nat) :
    transfer b target (withMemory s m draw) = withMemory (transfer b target s) m draw := by
  cases b <;> rfl

/-- An instruction that is no `load` and no `store` answers the same beside any data memory, and leaves that memory. -/
theorem exec_withMemory {i : Instr} {s t : State} (m : Memory) (draw : Nat) (hload : ∀ r a, i ≠ .load r a)
    (hstore : ∀ r a, i ≠ .store r a) (h : exec i s = .next t) :
    exec i (withMemory s m draw) = .next (withMemory t m draw) ∧ t.mem = s.mem ∧ t.memDraw = s.memDraw := by
  cases i with
  | load r a => exact absurd rfl (hload r a)
  | store r a => exact absurd rfl (hstore r a)
  | noop | halt | add | sub | and | or | xor | addi | subi | andi | ori | xori | cmp =>
    obtain rfl := Host.Outcome.next.inj h
    exact ⟨rfl, rfl, rfl⟩
  | jmp | jeq | jne | jlt | jgt =>
    obtain rfl := Host.Outcome.next.inj h
    exact ⟨congrArg Host.Outcome.next (transfer_withMemory s _ _ m draw), by simp [transfer_eq_setPc],
      by simp [transfer_eq_setPc]⟩
  | jal target =>
    cases hfull : rasFull s with
    | true =>
      obtain rfl := Host.Outcome.next.inj ((exec_jal_of_full target hfull).symm.trans h)
      exact ⟨exec_jal_of_full target hfull, rfl, rfl⟩
    | false =>
      obtain rfl := Host.Outcome.next.inj ((exec_jal_of_room target hfull).symm.trans h)
      exact ⟨exec_jal_of_room target hfull, rfl, rfl⟩
  | ret =>
    cases hras : s.ras with
    | nil =>
      obtain rfl := Host.Outcome.next.inj ((exec_ret_of_empty hras).symm.trans h)
      exact ⟨exec_ret_of_empty hras, rfl, rfl⟩
    | cons a l =>
      obtain rfl := Host.Outcome.next.inj ((exec_ret_of_entry hras).symm.trans h)
      exact ⟨exec_ret_of_entry hras, rfl, rfl⟩

/-- A `store` beside another data memory writes the same value to the same cell. -/
theorem memRead_store_withMemory {s : State} (m : Memory) (draw : Nat) (r : RegIx) {a b : CellAddr}
    (h : memRead (withMemory s m draw) b = memRead s b ∨ b = a) :
    memRead (memWrite (withMemory s m draw) a (readReg s r)) b = memRead (memWrite s a (readReg s r)) b := by
  by_cases hb : b = a
  · subst hb
    rw [memRead_memWrite_same, memRead_memWrite_same]
  · rw [memRead_memWrite_other _ _ hb, memRead_memWrite_other _ _ hb, h.resolve_right hb]

/-- Settles O36: `store` writes a register's value, and the other instructions leave the memory they stand beside. -/
theorem onlyLoadReadsMemory : Obligations.OnlyLoadReadsMemory := by
  intro i s t s' hload hs' h
  obtain ⟨m, draw, rfl⟩ : ∃ m draw, s' = withMemory s m draw := ⟨_, _, hs'⟩
  by_cases hstore : ∃ r a, i = .store r a
  · obtain ⟨r, a, rfl⟩ := hstore
    obtain rfl : advance (memWrite s a (readReg s r)) = t := Host.Outcome.next.inj h
    refine ⟨_, rfl, rfl, rfl, rfl, rfl, fun q b hi => ?_, fun b hb => ?_⟩
    · obtain ⟨rfl, rfl⟩ : r = q ∧ a = b := by simpa using hi
      exact memRead_store_withMemory m draw r (.inr rfl)
    · exact memRead_store_withMemory m draw r (.inl hb)
  · push Not at hstore
    obtain ⟨hexec, hmem, hdraw⟩ := exec_withMemory m draw hload hstore h
    obtain ⟨-, hcfg, -⟩ := (effect_of_exec h).sameFixed
    refine ⟨_, hexec, rfl, rfl, rfl, rfl, fun r a hi => absurd hi (hstore r a), fun a ha => ?_⟩
    simpa [memRead, withMemory, hmem, hdraw, hcfg] using ha

/-! ### Fetching, faulting and halting -/

/-- The word of a machine that can fetch (R110). -/
theorem fetch_of_canFetch {s : State} (h : CanFetch s) : fetch s = .ok (imageWord s.image s.pc.toNat) := by
  obtain ⟨-, haligned, hinside⟩ := h
  exact fetch_ok_iff.mpr ⟨haligned, hinside, rfl⟩

/-- A running machine that fetches and decodes can fetch (R110, R114). -/
theorem canFetch_of_fetchDecode {s : State} {i : Instr} (hrunning : s.status = .running)
    (h : fetchDecode s = .ok i) : CanFetch s := by
  obtain ⟨w, hfetch, -⟩ := fetchDecode_ok_iff.mp h
  obtain ⟨haligned, hinside, -⟩ := fetch_ok_iff.mp hfetch
  exact ⟨hrunning, haligned, hinside⟩

/-- Settles O32: a fetch that succeeds and a decode that succeeds leave `exec` alone. -/
theorem stepRunsTheDecodedInstruction : Obligations.StepRunsTheDecodedInstruction := by
  intro s i hfetch hdecode
  have hrunning : s.status = .running := hfetch.left
  exact step_of_instr hrunning (fetchDecode_ok_iff.mpr ⟨_, fetch_of_canFetch hfetch, hdecode⟩)

/-- Settles O33: the faults of fetch and decode are next states, and every instruction completes. -/
theorem runningMachineAlwaysSteps : Obligations.RunningMachineAlwaysSteps := by
  intro s hrunning
  cases h : fetchDecode s with
  | error c => exact ⟨_, step_of_fault hrunning h⟩
  | ok i =>
    obtain ⟨t, ht, -⟩ := exec_effect i s
    exact ⟨t, (step_of_instr hrunning h).trans ht⟩

/-- A running machine whose fetch faults takes that fault (R114, R211, R212). -/
theorem step_of_fetch_error {s : State} {c : FaultCause} (hrunning : s.status = .running) (h : fetch s = .error c) :
    step s = .next (raiseFault s c) :=
  step_of_fault hrunning (fetchDecode_error_iff.mpr (.inl h))

/-- A running machine at a misaligned pc takes MisalignedFetch (R211). -/
theorem step_of_misaligned {s : State} (hrunning : s.status = .running) (h : s.pc.toNat % 4 ≠ 0) :
    step s = .next (raiseFault s (.misalignedFetch s.pc)) :=
  step_of_fetch_error hrunning (fetch_error_iff.mpr (.inl ⟨h, rfl⟩))

/-- Settles O26: each clause is one of the two ways in which a fetch fails. -/
theorem fetchFaultsAreTaken : Obligations.FetchFaultsAreTaken := by
  intro s hrunning
  refine ⟨fun h => ?_, fun haligned houtside => ?_⟩
  · exact ⟨_, step_of_misaligned hrunning h, faultEntered_raiseFault s _, rfl⟩
  · have hfetch : fetch s = .error (.fetchOutOfRange s.pc) := fetch_error_iff.mpr (.inr ⟨haligned, houtside, rfl⟩)
    exact ⟨_, step_of_fetch_error hrunning hfetch, faultEntered_raiseFault s _, rfl⟩

/-- An instruction that ends a running machine in a fault has taken that fault and done nothing else (R216, R217). -/
theorem Effect.eq_raiseFault {i : Instr} {s t : State} {c : FaultCause} (h : Effect s i t)
    (hrunning : s.status = .running) (hfault : t.status = .faulted c) : t = raiseFault s c := by
  cases h with
  | overflowed target hfull => exact congrArg (raiseFault s) (Status.faulted.inj hfault)
  | underflowed hempty => exact congrArg (raiseFault s) (Status.faulted.inj hfault)
  | stopped => cases hfault
  | _ => cases hrunning.symm.trans hfault

/-- Settles O29: whether fetch, decode or the instruction faults, the new state is the fault entry's. -/
theorem faultsArePreciseAndTerminal : Obligations.FaultsArePreciseAndTerminal := by
  intro s t c h hfault
  have hentry : t = raiseFault s c := by
    obtain ⟨hrunning, ⟨d, -, rfl⟩ | ⟨i, -, hexec⟩⟩ := step_next_cases h
    · exact congrArg (raiseFault s) (Status.faulted.inj hfault)
    · exact (effect_of_exec hexec).eq_raiseFault hrunning hfault
  exact ⟨hentry ▸ faultEntered_raiseFault s c, step_ne_next_of_not_running (by simp [hfault])⟩

/-- Settles O34: of the effects only the stop of `halt` turns a running machine into a halted one. -/
theorem onlyHaltHalts : Obligations.OnlyHaltHalts := by
  intro s t h hhalted
  obtain ⟨hrunning, ⟨c, -, rfl⟩ | ⟨i, hi, hexec⟩⟩ := step_next_cases h
  · cases hhalted
  · refine ⟨canFetch_of_fetchDecode hrunning hi, ?_⟩
    cases effect_of_exec hexec with
    | stopped => exact hi
    | overflowed | underflowed => cases hhalted
    | _ => cases hrunning.symm.trans hhalted

/-- Settles O45: the record follows the fetch, which succeeds exactly when the word at the pc can be fetched. -/
theorem traceRecordPerFetch : Obligations.TraceRecordPerFetch := by
  intro s
  refine ⟨fun hfetch => ?_, fun hno => ?_⟩
  · have hrunning : s.status = .running := hfetch.left
    simp [traceRecord?, hrunning, fetch_of_canFetch hfetch]
  · unfold traceRecord?
    split
    · next hrunning =>
      split
      · next w hfetch =>
        obtain ⟨haligned, hinside, -⟩ := fetch_ok_iff.mp hfetch
        exact absurd ⟨hrunning, haligned, hinside⟩ hno
      · rfl
    · rfl
    · rfl

end Sys2Proof.Proofs
end

section
/-! PROOFS of the statements about the invariant: it holds at reset and after every launch, every step keeps it, and so
every reachable state meets it; and of those about reset and the bounded run. -/

namespace Sys2Proof.Proofs

open Sys2Proof Sys2Proof.Machine Sys2Proof.Safety Sys2Proof.Laws

/-! ### What the invariant gives -/

/-- A register reads below 2^W (R31). -/
theorem readReg_lt {s : State} (hinv : Inv s) (i : RegIx) : readReg s i < s.cfg.modulus := by
  have hpos : 0 < s.cfg.modulus := Nat.two_pow_pos _
  unfold readReg
  split
  · exact hpos
  · rw [List.getD_eq_getElem?_getD]
    cases h : s.regs[i.toNat]? with
    | none => exact hpos
    | some v => exact hinv.regWidth v (List.mem_of_getElem? h)

/-- A cell reads below 2^W (R62). -/
theorem memRead_lt {s : State} (hinv : Inv s) (a : CellAddr) : memRead s a < s.cfg.modulus := by
  unfold memRead
  cases h : s.mem.lookup a.toNat with
  | none => exact Nat.mod_lt _ (Nat.two_pow_pos _)
  | some v => exact (hinv.memCells _ (lookup_some_mem h)).right

/-- The image of a running machine is made of words (R251). -/
theorem image_words_of_running {s : State} (hinv : Inv s) (hrunning : s.status = .running) :
    s.image.length % 4 = 0 := by
  obtain hwords | hfault := hinv.imageWords
  · exact hwords
  · cases hrunning.symm.trans hfault

/-! ### The operations that keep the invariant -/

/-- r0 is hardwired where the parameter says so, and no other register is (R33). -/
theorem hardwired_iff {s : State} {i : RegIx} : hardwired s i = true ↔ s.cfg.r0Hardwired = true ∧ i = 0 := by
  simp [hardwired]

/-- A register write reduces its value and leaves a hardwired r0 alone (R31, R33). -/
theorem inv_writeReg {s : State} (hinv : Inv s) (i : RegIx) (v : Int) : Inv (writeReg s i v) where
  cfgWf := hinv.cfgWf
  regCount := (writeReg_regs_length s i v).trans hinv.regCount
  regWidth := fun x hx => by
    obtain hold | rfl := mem_writeReg_regs hx
    · exact hinv.regWidth x hold
    · exact wrapped_lt s v
  zeroReg := fun hzero => by
    have hold := hinv.zeroReg hzero
    rw [writeReg_regs]
    split
    · exact hold
    · next hplain =>
      have hi : i ≠ 0 := fun h0 => hplain (hardwired_iff.mpr ⟨hzero, h0⟩)
      have hn : i.toNat ≠ 0 := fun h0 => hi (BitVec.eq_of_toNat_eq h0)
      simpa [List.getD, hn] using hold
  rasBound := hinv.rasBound
  rasInImage := hinv.rasInImage
  rasSmall := hinv.rasSmall
  memSorted := hinv.memSorted
  memCells := hinv.memCells
  imageBound := hinv.imageBound
  imageWords := hinv.imageWords

/-- A store of a W-bit value keeps the memory canonical (R62). -/
theorem inv_memWrite {s : State} (hinv : Inv s) (a : CellAddr) {v : Nat} (hv : v < s.cfg.modulus) :
    Inv (memWrite s a v) :=
  { hinv with
    memSorted := insert_wf a.toNat v hinv.memSorted
    memCells := fun p hp => by
      obtain rfl | hold := mem_insert hp
      · exact ⟨a.isLt, hv⟩
      · exact hinv.memCells p hold }

/-- The invariant does not speak of the pc. -/
theorem inv_setPc {s : State} (hinv : Inv s) (p : PcWord) : Inv (setPc s p) := { hinv with }

/-- A machine that ran keeps the invariant whatever its status becomes. -/
theorem inv_setHalted {s : State} (hinv : Inv s) (hrunning : s.status = .running) : Inv (setHalted s) :=
  { hinv with imageWords := .inl (image_words_of_running (s := s) hinv hrunning) }

/-- Fault entry of a machine that ran keeps the invariant (R215). -/
theorem inv_raiseFault {s : State} (hinv : Inv s) (hrunning : s.status = .running) (c : FaultCause) :
    Inv (raiseFault s c) :=
  { hinv with imageWords := .inl (image_words_of_running (s := s) hinv hrunning) }

/-- A push of an address of the image on a stack with room, in the rich revision (R45, R186). -/
theorem inv_push {s : State} (hinv : Inv s) {p : PcWord} (hroom : rasFull s = false) (hp : InImage s.image p)
    (hrich : s.cfg.revision ≠ .small) : Inv (push s p) :=
  { hinv with
    rasBound := by
      have hlt : s.ras.length < s.cfg.rasDepth := by simpa [rasFull] using hroom
      exact hlt
    rasInImage := fun a ha => by
      obtain rfl | hold := List.mem_cons.mp ha
      · exact hp
      · exact hinv.rasInImage a hold
    rasSmall := fun hsmall => absurd hsmall hrich }

/-- A pop leaves entries that stood there before (R187). -/
theorem inv_dropTop {s : State} (hinv : Inv s) : Inv (dropTop s) :=
  { hinv with
    rasBound := (List.tail_sublist s.ras).length_le.trans hinv.rasBound
    rasInImage := fun a ha => hinv.rasInImage a (List.mem_of_mem_tail ha)
    rasSmall := fun hsmall => by simp [hinv.rasSmall hsmall] }

/-! ### Every step keeps it -/

/-- The address of an instruction that was fetched is an address of the image (R110). -/
theorem inImage_pc {s : State} (h : CanFetch s) : InImage s.image s.pc := by
  obtain ⟨-, haligned, hinside⟩ := h
  exact ⟨haligned, hinside⟩

/-- A `jal` that decodes stands in the rich revision (R3, R101). -/
theorem rich_of_jal_wf {c : Config} {target : Target} (h : (Instr.jal target).wf c = true) : c.revision ≠ .small := by
  intro hsmall
  simp [Instr.wf, Config.has, hsmall] at h

/-- An instruction that a running machine fetched and decoded keeps the invariant. -/
theorem Effect.inv {i : Instr} {s t : State} (h : Effect s i t) (hinv : Inv s) (hfetch : CanFetch s)
    (hwf : i.wf s.cfg = true) : Inv t := by
  have hrunning : s.status = .running := hfetch.left
  cases h with
  | wroteReg _ rd v => exact inv_setPc (inv_writeReg hinv rd v) _
  | stored r a => exact inv_setPc (inv_memWrite hinv a (readReg_lt hinv r)) _
  | stopped => exact inv_setHalted (inv_setPc hinv _) hrunning
  | moved _ p => exact inv_setPc hinv p
  | called target hroom => exact inv_setPc (inv_push hinv hroom (inImage_pc hfetch) (rich_of_jal_wf hwf)) _
  | overflowed | underflowed => exact inv_raiseFault hinv hrunning _
  | returned a l hentry => exact inv_setPc (inv_dropTop hinv) a

/-- Settles O49: fetch and decode faults enter by the fault entry, and a decoded instruction is well formed. -/
theorem stepKeepsTheInvariant : Obligations.StepKeepsTheInvariant := by
  intro s t hinv h
  obtain ⟨hrunning, ⟨c, -, rfl⟩ | ⟨i, hi, hexec⟩⟩ := step_next_cases h
  · exact inv_raiseFault hinv hrunning c
  · obtain ⟨w, -, hdecode⟩ := fetchDecode_ok_iff.mp hi
    obtain ⟨-, hwf⟩ := encodeOfDecode s.cfg w i hdecode
    exact (effect_of_exec hexec).inv hinv (canFetch_of_fetchDecode hrunning hi) hwf

/-! ### Reset and launch -/

/-- LoadImage accepts an image within the bound, and then launches it (R15, R251). -/
theorem loadImage_some_iff {c : Config} {draw : Nat} {image : List Byte} {s : State} :
    loadImage c draw image = some s ↔ image.length ≤ c.imageMaxBytes ∧ launch c draw image = s := by
  unfold loadImage
  split <;> simp_all

/-- The two statuses of a launch (R251). -/
theorem launch_status (c : Config) (draw : Nat) (image : List Byte) :
    (launch c draw image).status =
      if image.length % 4 = 0 then .running else .faulted (.imageLength image.length) := rfl

/-- Every register of a launched machine reads 0 (R250). -/
theorem readReg_launch (c : Config) (draw : Nat) (image : List Byte) (i : RegIx) :
    readReg (launch c draw image) i = 0 := by
  unfold readReg launch
  split
  · rfl
  · rw [List.getD_eq_getElem?_getD, List.getElem?_replicate]
    split <;> rfl

/-- Settles O46: LoadImage's bound decides whether there is a launch, whose fields are read off. -/
theorem launchGivesTheResetState : Obligations.LaunchGivesTheResetState := by
  intro c draw image
  refine ⟨by simp [loadImage], fun s hs => ?_⟩
  obtain ⟨-, rfl⟩ := loadImage_some_iff.mp hs
  refine ⟨List.length_replicate, readReg_launch c draw image, rfl, rfl, fun _ => rfl, rfl, rfl,
    fun hwords => by simp [launch_status, hwords], fun hodd => ?_⟩
  have hstatus : (launch c draw image).status = .faulted (.imageLength image.length) := by
    simp [launch_status, hodd]
  exact ⟨hstatus, rfl, step_ne_next_of_not_running (by simp [hstatus])⟩

/-- A launch of a legal configuration with an accepted image meets the invariant. -/
theorem inv_launch {c : Config} (draw : Nat) {image : List Byte} (hc : c.wf)
    (hbound : image.length ≤ c.imageMaxBytes) : Inv (launch c draw image) where
  cfgWf := hc
  regCount := List.length_replicate
  regWidth := fun v hv => by
    obtain rfl := List.eq_of_mem_replicate hv
    exact Nat.two_pow_pos _
  zeroReg := fun _ => by
    rw [List.getD_eq_getElem?_getD, launch, List.getElem?_replicate]
    split <;> rfl
  rasBound := Nat.zero_le _
  rasInImage := fun _ ha => absurd ha List.not_mem_nil
  rasSmall := fun _ => rfl
  memSorted := List.Pairwise.nil
  memCells := fun _ hp => absurd hp List.not_mem_nil
  imageBound := hbound
  imageWords := by
    by_cases hwords : image.length % 4 = 0
    · exact .inl hwords
    · exact .inr (by simp [launch, launchStatus, hwords])

/-- A preload keeps the invariant, as each of its register writes does (R254). -/
theorem inv_preload {s : State} (values : List (RegIx × Nat)) (hinv : Inv s) : Inv (preload s values) := by
  unfold preload
  induction values generalizing s with
  | nil => exact hinv
  | cons p values ih => exact ih (inv_writeReg hinv p.1 p.2)

/-- Settles O48: the launch meets it and the preload keeps it. -/
theorem launchMeetsTheInvariant : Obligations.LaunchMeetsTheInvariant := by
  intro c draw image values s hc hs
  obtain ⟨hbound, rfl⟩ := loadImage_some_iff.mp hs
  exact inv_preload values (inv_launch draw hc hbound)

/-- Settles O47: reset is the launch of the empty image. -/
theorem resetMeetsTheInvariant : Obligations.ResetMeetsTheInvariant :=
  inv_launch (c := referenceConfig) 0 (image := []) (by decide) (Nat.zero_le _)

/-- Settles O50: by induction on the run, from the launch over the steps. -/
theorem reachableStatesMeetTheInvariant : Obligations.ReachableStatesMeetTheInvariant := by
  intro s h
  induction h with
  | launched c draw image values s hc hs => exact launchMeetsTheInvariant c draw image values s hc hs
  | stepped s t _ hstep ih => exact stepKeepsTheInvariant s t ih hstep

/-! ### Return targets -/

/-- Settles O31: the popped address is an address of the image by the invariant. -/
theorem returnTargetCanBeFetched : Obligations.ReturnTargetCanBeFetched := by
  intro s t hinv hrunning hentries h
  obtain ⟨a, l, hentry⟩ := List.exists_cons_of_ne_nil hentries
  obtain rfl := Host.Outcome.next.inj ((exec_ret_of_entry hentry).symm.trans h)
  exact ⟨hrunning, hinv.rasInImage a (by simp [hentry])⟩

/-! ### The bounded run -/

/-- A stopped machine has its verdict without fuel (R255). -/
theorem runFuel_of_not_running {s : State} (h : s.status ≠ .running) (n : Nat) : runFuel n s = runFuel 0 s := by
  unfold runFuel
  split
  · rfl
  · rfl
  · next hrunning => exact absurd hrunning h

/-- A running machine spends a unit of fuel on its step (R114). -/
theorem runFuel_succ_of_step {s t : State} (h : step s = .next t) (n : Nat) : runFuel (n + 1) s = runFuel n t := by
  obtain ⟨hrunning, -⟩ := step_next_cases h
  simp [runFuel, hrunning, h]

/-- Settles O51: by induction on the fuel; a stopped machine needs none, and a running one spends one unit on the same
step either way. -/
theorem moreFuelKeepsTheVerdict : Obligations.MoreFuelKeepsTheVerdict := by
  intro n k
  induction n with
  | zero =>
    intro s hverdict
    have hstopped : s.status ≠ .running := fun hrunning => hverdict s (by simp [runFuel, hrunning])
    rw [runFuel_of_not_running hstopped]
  | succ n ih =>
    intro s hverdict
    by_cases hrunning : s.status = .running
    · obtain ⟨t, hstep⟩ := runningMachineAlwaysSteps s hrunning
      rw [runFuel_succ_of_step hstep] at hverdict
      rw [Nat.add_right_comm, runFuel_succ_of_step hstep, runFuel_succ_of_step hstep]
      exact ih t hverdict
    · rw [runFuel_of_not_running hrunning, runFuel_of_not_running hrunning (n + 1)]

end Sys2Proof.Proofs
end

section
/-! PROOFS of the statements about the instructions that write a register or a cell: the ALU (R141 to R150), `store` and
`load` (R160, R161), `cmp` (R170); and about a hardwired r0 (R33). -/

namespace Sys2Proof.Proofs

open Sys2Proof Sys2Proof.Machine Sys2Proof.Safety Sys2Proof.Laws

/-! ### The words of the instructions -/

/-- The word of an instruction that is no call and no return decodes to it when its register fields are legal and is
malformed when they are not, in both revisions (R108, R111). -/
theorem decodesTo_word {c : Config} (i : Instr) (hc : c.wf) (hjal : i.mnemonic ≠ .jal) (hret : i.mnemonic ≠ .ret) :
    DecodesTo c (encode c i) i :=
  decodesTo_encode_of_ne_jal_ret hc (encodedFields i) hjal hret

/-! ### The one register write -/

/-- Settles O43: the write of a hardwired r0 is discarded, and any other is reduced and kept. -/
theorem zeroRegisterFollowsItsParameter : Obligations.ZeroRegisterFollowsItsParameter := by
  intro s v
  refine ⟨fun hzero => ?_, fun hplain hlen => ?_⟩
  · have hw : hardwired s 0 = true := hardwired_iff.mpr ⟨hzero, rfl⟩
    exact ⟨readReg_hardwired hw, writeReg_hardwired v hw⟩
  · exact readReg_writeReg_same_int v (hardwired_eq_false_iff.mpr fun _ => hplain) hlen

/-- An index byte below N is the index of an entry of the register file (R30, R32). -/
theorem toNat_lt_of_isReg {s : State} (hinv : Inv s) {i : RegIx} (h : s.cfg.isReg i = true) :
    i.toNat < s.regs.length := by
  rw [hinv.regCount]
  simpa [Config.isReg] using h

/-- A register write and the advance are all that a straight-line instruction with a destination register does: the
register reads the value that the write reduced (R11, R31, R113). -/
theorem wroteReg_writeReg {s : State} {rd : RegIx} {v : Int} {n : Nat} (hinv : Inv s) (hrd : s.cfg.isReg rd = true)
    (hv : (v % (s.cfg.modulus : Int)).toNat = n) : WroteReg s (advance (writeReg s rd v)) rd n := by
  refine ⟨?_, fun i hi => readReg_writeReg_other s v hi, fun _ => rfl, rfl, ⟨rfl, rfl, rfl⟩, rfl, rfl⟩
  rw [readReg_advance]
  split
  · next hzero =>
    have hw : hardwired s rd = true := hardwired_iff.mpr hzero
    rw [writeReg_hardwired v hw, readReg_hardwired hw]
  · next hplain =>
    have hw : hardwired s rd = false := Bool.eq_false_iff.mpr (mt hardwired_iff.mp hplain)
    rw [readReg_writeReg_same v hw (toNat_lt_of_isReg hinv hrd), hv]

/-- A natural number is reduced as such (R31). -/
theorem toNat_natCast_emod (n m : Nat) : ((n : Int) % (m : Int)).toNat = n % m := by
  norm_cast

/-- A number below 2^W is not shortened (R31). -/
theorem toNat_natCast_emod_of_lt {n m : Nat} (h : n < m) : ((n : Int) % (m : Int)).toNat = n := by
  rw [toNat_natCast_emod, Nat.mod_eq_of_lt h]

/-! ### The ALU -/

/-- An ALU instruction completes, and its destination reads the reduced result (R140). -/
theorem alu_completes {i : Instr} {op : Nat → Nat → Int} {o : Operand1} {rs2 rd : RegIx} {s : State} {n : Nat}
    (hexec : exec i s = aluOp op o rs2 rd s) (hinv : Inv s) (hrd : s.cfg.isReg rd = true)
    (hv : (op (o.value s) (readReg s rs2) % (s.cfg.modulus : Int)).toNat = n) :
    ∃ t, exec i s = .next t ∧ WroteReg s t rd n :=
  ⟨_, hexec, wroteReg_writeReg hinv hrd hv⟩

/-- The reduced sum (R141, R146). -/
theorem aluAdd_reduced (w a b : Nat) : (aluAdd a b % ((2 ^ w : Nat) : Int)).toNat = (a + b) % 2 ^ w :=
  toNat_natCast_emod (a + b) (2 ^ w)

/-- The reduced difference (R142, R147). -/
theorem aluSub_reduced (w a b : Nat) :
    (aluSub a b % ((2 ^ w : Nat) : Int)).toNat = (((a : Int) - (b : Int)) % (2 : Int) ^ w).toNat := by
  simp [aluSub]

/-- Settles O1: the sum is reduced by the write. -/
theorem addWritesSum : Obligations.AddWritesSum := by
  intro s rs1 rs2 rd hinv
  refine ⟨decodesTo_word (.add rs1 rs2 rd) hinv.cfgWf nofun nofun, fun hwf => ?_⟩
  exact alu_completes rfl hinv (Bool.and_elim_right hwf) (aluAdd_reduced _ _ _)

/-- Settles O2: rs1 is the minuend, and the difference is reduced by the write. -/
theorem subWritesDifference : Obligations.SubWritesDifference := by
  intro s rs1 rs2 rd hinv
  refine ⟨decodesTo_word (.sub rs1 rs2 rd) hinv.cfgWf nofun nofun, fun hwf => ?_⟩
  exact alu_completes rfl hinv (Bool.and_elim_right hwf) (aluSub_reduced _ _ _)

/-- Settles O3: an AND of W-bit values has W bits. -/
theorem andWritesBitwiseAnd : Obligations.AndWritesBitwiseAnd := by
  intro s rs1 rs2 rd hinv
  refine ⟨decodesTo_word (.and rs1 rs2 rd) hinv.cfgWf nofun nofun, fun hwf => ?_⟩
  exact alu_completes rfl hinv (Bool.and_elim_right hwf)
    (toNat_natCast_emod_of_lt (Nat.and_lt_two_pow _ (readReg_lt hinv rs2)))

/-- Settles O4: an OR of W-bit values has W bits. -/
theorem orWritesBitwiseOr : Obligations.OrWritesBitwiseOr := by
  intro s rs1 rs2 rd hinv
  refine ⟨decodesTo_word (.or rs1 rs2 rd) hinv.cfgWf nofun nofun, fun hwf => ?_⟩
  exact alu_completes rfl hinv (Bool.and_elim_right hwf)
    (toNat_natCast_emod_of_lt (Nat.or_lt_two_pow (readReg_lt hinv rs1) (readReg_lt hinv rs2)))

/-- Settles O5: an exclusive OR of W-bit values has W bits. -/
theorem xorWritesBitwiseXor : Obligations.XorWritesBitwiseXor := by
  intro s rs1 rs2 rd hinv
  refine ⟨decodesTo_word (.xor rs1 rs2 rd) hinv.cfgWf nofun nofun, fun hwf => ?_⟩
  exact alu_completes rfl hinv (Bool.and_elim_right hwf)
    (toNat_natCast_emod_of_lt (Nat.xor_lt_two_pow (readReg_lt hinv rs1) (readReg_lt hinv rs2)))

/-! ### Immediates -/

/-- A legal width is 8 or more (R3). -/
theorem eight_le_width {c : Config} (hc : c.wf) : 8 ≤ c.width := by
  obtain ⟨⟨hrich, hsmall⟩, -⟩ := hc
  cases h : c.revision with
  | rich => exact hrich h
  | small => exact (hsmall h).ge

/-- A zero-extended byte is a register value (R102). -/
theorem immValue_lt {c : Config} (hc : c.wf) (b : Byte) : immValue b < c.modulus :=
  b.isLt.trans_le (Nat.pow_le_pow_right (by decide) (eight_le_width hc))

/-- Settles O6: the sum is reduced by the write. -/
theorem addiWritesSum : Obligations.AddiWritesSum := by
  intro s imm rs2 rd hinv
  refine ⟨decodesTo_word (.addi imm rs2 rd) hinv.cfgWf nofun nofun, fun hwf => ?_⟩
  exact alu_completes rfl hinv (Bool.and_elim_right hwf) (aluAdd_reduced _ _ _)

/-- Settles O7: the immediate is the minuend, and the difference is reduced by the write. -/
theorem subiWritesDifference : Obligations.SubiWritesDifference := by
  intro s imm rs2 rd hinv
  refine ⟨decodesTo_word (.subi imm rs2 rd) hinv.cfgWf nofun nofun, fun hwf => ?_⟩
  exact alu_completes rfl hinv (Bool.and_elim_right hwf) (aluSub_reduced _ _ _)

/-- Settles O8: an AND with a byte is a byte. -/
theorem andiWritesBitwiseAnd : Obligations.AndiWritesBitwiseAnd := by
  intro s imm rs2 rd hinv
  refine ⟨decodesTo_word (.andi imm rs2 rd) hinv.cfgWf nofun nofun,
    Nat.and_le_left.trans_lt imm.isLt, fun hwf => ?_⟩
  exact alu_completes rfl hinv (Bool.and_elim_right hwf)
    (toNat_natCast_emod_of_lt (Nat.and_lt_two_pow _ (readReg_lt hinv rs2)))

/-- Settles O9: an OR with a byte reaches the bits below 8 only. -/
theorem oriWritesBitwiseOr : Obligations.OriWritesBitwiseOr := by
  intro s imm rs2 rd hinv
  have hhigh : (imm.toNat ||| readReg s rs2) / 2 ^ 8 = readReg s rs2 / 2 ^ 8 := by
    rw [Nat.or_div_two_pow, Nat.div_eq_of_lt imm.isLt, Nat.zero_or]
  refine ⟨decodesTo_word (.ori imm rs2 rd) hinv.cfgWf nofun nofun, hhigh, fun hwf => ?_⟩
  exact alu_completes rfl hinv (Bool.and_elim_right hwf)
    (toNat_natCast_emod_of_lt (Nat.or_lt_two_pow (immValue_lt hinv.cfgWf imm) (readReg_lt hinv rs2)))

/-- Settles O10: an exclusive OR with a byte reaches the bits below 8 only. -/
theorem xoriWritesBitwiseXor : Obligations.XoriWritesBitwiseXor := by
  intro s imm rs2 rd hinv
  have hhigh : (imm.toNat ^^^ readReg s rs2) / 2 ^ 8 = readReg s rs2 / 2 ^ 8 := by
    rw [Nat.xor_div_two_pow, Nat.div_eq_of_lt imm.isLt, Nat.zero_xor]
  refine ⟨decodesTo_word (.xori imm rs2 rd) hinv.cfgWf nofun nofun, hhigh, fun hwf => ?_⟩
  exact alu_completes rfl hinv (Bool.and_elim_right hwf)
    (toNat_natCast_emod_of_lt (Nat.xor_lt_two_pow (immValue_lt hinv.cfgWf imm) (readReg_lt hinv rs2)))

/-! ### Load and store -/

/-- A store and the advance write one cell (R160). -/
theorem wroteCell_memWrite (s : State) (a : CellAddr) (v : Nat) : WroteCell s (advance (memWrite s a v)) a v :=
  ⟨memRead_memWrite_same s a v, fun _ hb => memRead_memWrite_other s v hb, fun _ => rfl, rfl, ⟨rfl, rfl, rfl⟩, rfl, rfl⟩

/-- Settles O11: the cell takes the register's value whole. -/
theorem storeWritesCell : Obligations.StoreWritesCell := by
  intro s r addr hinv
  exact ⟨decodesTo_word (.store r addr) hinv.cfgWf nofun nofun,
    fun _ => ⟨_, rfl, wroteCell_memWrite s addr (readReg s r)⟩⟩

/-- `load` of a legal register writes the cell's value, which has W bits (R161). -/
theorem load_completes {s : State} {r : RegIx} (addr : CellAddr) (hinv : Inv s) (hr : s.cfg.isReg r = true) :
    ∃ t, exec (.load r addr) s = .next t ∧ WroteReg s t r (memRead s addr) :=
  ⟨_, rfl, wroteReg_writeReg hinv hr (toNat_natCast_emod_of_lt (memRead_lt hinv addr))⟩

/-- Settles O12: a cell without a stored value falls back to its MEM_INIT value. -/
theorem loadReadsCell : Obligations.LoadReadsCell := by
  intro s r addr hinv
  exact ⟨decodesTo_word (.load r addr) hinv.cfgWf nofun nofun,
    fun hnone => by simp [memRead, hnone], load_completes addr hinv⟩

/-- Settles O42: the state after the store meets the invariant, so the load completes on what the store left. -/
theorem loadAfterStore : Obligations.LoadAfterStore := by
  intro s t r q a b hinv _ hq h
  obtain rfl : advance (memWrite s a (readReg s r)) = t := Host.Outcome.next.inj h
  have hinvStored := inv_setPc (inv_memWrite hinv a (readReg_lt hinv r)) (s.pc + 4)
  have hcell : memRead (advance (memWrite s a (readReg s r))) b = if b = a then readReg s r else memRead s b := by
    rw [memRead_advance]
    split
    · next hb => rw [hb, memRead_memWrite_same]
    · next hb => exact memRead_memWrite_other s _ hb
  rw [← hcell]
  exact load_completes b hinvStored hq

/-! ### Compare -/

/-- What `cmp` decides (R170). -/
theorem compareCode_cases (c : CompareCodes) (a b : Nat) :
    (a < b ∧ compareCode c a b = c.lt) ∨ (b < a ∧ compareCode c a b = c.gt) ∨ (a = b ∧ compareCode c a b = c.eq) := by
  unfold compareCode
  split
  · next hlt => exact .inl ⟨hlt, rfl⟩
  · split
    · next hgt => exact .inr (.inl ⟨hgt, rfl⟩)
    · exact .inr (.inr ⟨by omega, rfl⟩)

/-- A code is a register value (R36). -/
theorem compareCode_lt {c : Config} (hc : c.wf) (a b : Nat) : compareCode c.codes a b < c.modulus := by
  obtain ⟨-, ⟨-, heq, -, hlt, hgt⟩, -⟩ := hc
  obtain ⟨-, h⟩ | ⟨-, h⟩ | ⟨-, h⟩ := compareCode_cases c.codes a b <;> rw [h]
  · exact hlt
  · exact hgt
  · exact heq

/-- r1 is a register in both revisions (R30, R34). -/
theorem isReg_flagReg (c : Config) : c.isReg flagReg = true := by
  unfold Config.isReg Config.numRegs
  cases c.revision <;> decide

/-- `cmp` completes, and the flag register takes the code (R170). -/
theorem cmp_completes {s : State} (rs1 rs2 : RegIx) (hinv : Inv s) :
    ∃ t, exec (.cmp rs1 rs2) s = .next t ∧
      WroteReg s t flagReg (compareCode s.cfg.codes (readReg s rs1) (readReg s rs2)) :=
  ⟨_, rfl, wroteReg_writeReg hinv (isReg_flagReg s.cfg) (toNat_natCast_emod_of_lt (compareCode_lt hinv.cfgWf _ _))⟩

/-- Settles O13: the word is checked for its last byte and its registers, and the code is `compareCode`'s. -/
theorem cmpWritesOutcome : Obligations.CmpWritesOutcome := by
  intro s rs1 rs2 b3 hinv
  refine ⟨?_, fun _ => cmp_completes rs1 rs2 hinv⟩
  rw [decode_of_opcode (m := .cmp) hinv.cfgWf (has_of_ne_jal_ret _ nofun nofun) rfl]
  have hmalformed : malformed s.cfg Mnemonic.cmp.shape ⟨s.cfg.opcodes.cmp, rs1, rs2, b3⟩ = true ↔
      ¬ (b3 = 0 ∧ (Instr.cmp rs1 rs2).wf s.cfg = true) := by
    show (!(s.cfg.isReg rs1 && s.cfg.isReg rs2 && b3 == 0)) = true ↔
      ¬ (b3 = 0 ∧ (s.cfg.isReg rs1 && s.cfg.isReg rs2) = true)
    rw [Bool.not_eq_true', Bool.eq_false_iff, ne_eq, Bool.and_eq_true, beq_iff_eq, and_comm]
  rw [if_congr hmalformed rfl rfl, ite_not]
  rfl

end Sys2Proof.Proofs
end

section
/-! PROOFS of the statements about the jumps, call and return: `jeq` (R182), `jal` (R186), `ret` (R187), the pair
of them (R188), misaligned targets (R191), and the jumps after a `cmp` (R173). -/

namespace Sys2Proof.Proofs

open Sys2Proof Sys2Proof.Machine Sys2Proof.Safety Sys2Proof.Laws

/-- Settles O15: the transfer of `jeq` is taken as Equal decides. -/
theorem jeqTakenIffEqual : Obligations.JeqTakenIffEqual := by
  intro s target hinv
  exact ⟨decodesTo_word (.jeq target) hinv.cfgWf nofun nofun, _, rfl, onlyPc_transfer s target (flagEqual_iff s)⟩

/-! ### Call and return -/

/-- The opcode of a mnemonic that the revision does not have is no opcode of it, since no other mnemonic owns the byte
(R92, R107). -/
theorem decode_of_absent {c : Config} {m : Mnemonic} {w : InstrWord} (hc : c.wf) (hhas : c.has m = false)
    (hopcode : c.opcodes.opOf m = w.b0) : decode c w = .error .unknownOpcode :=
  decode_of_unknown_opcode fun n hn hb => by
    obtain rfl : n = m := opOf_injective hc (hb.trans hopcode.symm)
    simp [hhas] at hn

/-- A stack with fewer than RAS_DEPTH entries is not full (R46). -/
theorem rasFull_eq_false_iff {s : State} : rasFull s = false ↔ s.ras.length < s.cfg.rasDepth := by
  simp [rasFull]

/-- Settles O19: the revision decides whether the word is a `jal`, which on a stack with room pushes its own pc. -/
theorem jalPushesOwnAddress : Obligations.JalPushesOwnAddress := by
  intro s target hinv
  refine ⟨?_, fun hroom => ⟨_, exec_jal_of_room target (rasFull_eq_false_iff.mpr hroom), fun _ => rfl, fun _ => rfl,
    rfl, ⟨rfl, rfl, rfl⟩, rfl, rfl⟩⟩
  cases hrev : s.cfg.revision with
  | rich =>
    have hwf : (Instr.jal target).wf s.cfg = true := by simp [Instr.wf, Config.has, hrev]
    rw [if_pos rfl]
    exact decodeOfEncode s.cfg (.jal target) hinv.cfgWf hwf
  | small =>
    rw [if_neg nofun]
    exact decode_of_absent (m := .jal) hinv.cfgWf (by simp [Config.has, hrev]) rfl

/-- Settles O20: a stack of RAS_DEPTH entries is full, and leaves `jal` its fault only. -/
theorem jalOnFullStackFaults : Obligations.JalOnFullStackFaults := by
  intro s target hlen
  have hfull : rasFull s = true := by simp [rasFull, hlen]
  exact ⟨_, exec_jal_of_full target hfull, faultEntered_raiseFault s _, rfl⟩

/-- Settles O21: the revision and the operand bytes decide whether the word is a `ret`, which pops its entry. -/
theorem retResumesAtPoppedAddress : Obligations.RetResumesAtPoppedAddress := by
  intro s b1 b2 b3 hinv
  refine ⟨?_, fun a l hentry => ⟨_, exec_ret_of_entry hentry, fun _ => rfl, fun _ => rfl, by simp [hentry],
    ⟨rfl, rfl, rfl⟩, rfl, rfl⟩⟩
  cases hrev : s.cfg.revision with
  | rich =>
    rw [if_neg nofun]
    exact decode_of_nullary (m := .ret) b1 b2 b3 hinv.cfgWf (by simp [Config.has, hrev]) rfl
  | small =>
    rw [if_pos rfl]
    exact decode_of_absent (m := .ret) hinv.cfgWf (by simp [Config.has, hrev]) rfl

/-- Settles O23: the `ret` pops what the `jal` pushed, its own pc, so the two leave the state as it was. -/
theorem callThenReturnIsBackAtTheCall : Obligations.CallThenReturnIsBackAtTheCall := by
  intro s t u target hroom hjal hret
  have hpush := exec_jal_of_room target (rasFull_eq_false_iff.mpr hroom)
  obtain rfl := Host.Outcome.next.inj (hpush.symm.trans hjal)
  have hpop := exec_ret_of_entry (s := setPc (push s s.pc) (targetPc target)) (a := s.pc) (l := s.ras) rfl
  obtain rfl := Host.Outcome.next.inj (hpop.symm.trans hret)
  exact onlyPc_setPc s s.pc

/-! ### Taken jumps -/

/-- A transfer that is taken sets the pc to its target (R180). -/
theorem exec_of_taken_transfer {i : Instr} {s : State} {target : Target} {b : Bool}
    (hexec : exec i s = .next (transfer b target s)) (hb : b = true) :
    exec i s = .next (setPc s (targetPc target)) := by
  rw [hexec, transfer_eq_setPc, if_pos hb]

/-- What a taken jump answers (R180, R186): `jal` the push and the jump, any other the jump alone. -/
theorem takenJump_cases {s : State} {target : Target} {i : Instr} (h : TakenJump s target i) :
    (i = .jal target ∧ exec i s = .next (setPc (push s s.pc) (targetPc target))) ∨
      (i ≠ .jal target ∧ exec i s = .next (setPc s (targetPc target))) := by
  obtain rfl | ⟨rfl, hroom⟩ | ⟨rfl, heq⟩ | ⟨rfl, hne⟩ | ⟨rfl, hlt⟩ | ⟨rfl, hgt⟩ := h
  · exact .inr ⟨nofun, rfl⟩
  · exact .inl ⟨rfl, exec_jal_of_room target (rasFull_eq_false_iff.mpr hroom)⟩
  · exact .inr ⟨nofun, exec_of_taken_transfer rfl ((flagEqual_iff s).mpr heq)⟩
  · exact .inr ⟨nofun, exec_of_taken_transfer rfl ((flagNotEqual_iff s).mpr hne)⟩
  · exact .inr ⟨nofun, exec_of_taken_transfer rfl ((flagLess_iff s).mpr hlt)⟩
  · exact .inr ⟨nofun, exec_of_taken_transfer rfl ((flagGreater_iff s).mpr hgt)⟩

/-- A running machine whose pc is a misaligned target takes MisalignedFetch there (R191). -/
theorem step_at_misaligned_target {t : State} {target : Target} (hrunning : t.status = .running)
    (hpc : t.pc = targetPc target) (h : target.toNat % 4 ≠ 0) :
    step t = .next (raiseFault t (.misalignedFetch (targetPc target))) := by
  have hsame : (targetPc target).toNat = target.toNat :=
    BitVec.toNat_setWidth_of_le (by decide)
  rw [step_of_misaligned hrunning (by rwa [hpc, hsame]), hpc]

/-- Settles O30: the jump completes with the pc at the target, and the fetch from there faults. -/
theorem misalignedTargetFaultsAtNextFetch : Obligations.MisalignedTargetFaultsAtNextFetch := by
  intro s i target hrunning hodd htaken
  obtain ⟨hjal, hexec⟩ | ⟨hjal, hexec⟩ := takenJump_cases htaken
  · exact ⟨_, _, hexec, rfl, hrunning, fun _ => rfl, fun _ => rfl, ⟨rfl, rfl, rfl⟩, fun _ => rfl,
      fun hne => absurd hjal hne, step_at_misaligned_target hrunning rfl hodd, faultEntered_raiseFault _ _⟩
  · exact ⟨_, _, hexec, rfl, hrunning, fun _ => rfl, fun _ => rfl, ⟨rfl, rfl, rfl⟩, fun heq => absurd heq hjal,
      fun _ => rfl, step_at_misaligned_target hrunning rfl hodd, faultEntered_raiseFault _ _⟩

/-! ### Jumps after a compare -/

/-- A transfer to a target other than pc + 4 shows in the pc whether it was taken (R180). -/
theorem transfer_pc_eq_target_iff {s : State} {target : Target} {b : Bool} {p : Prop} (hb : b = true ↔ p)
    (hother : target.setWidth 32 ≠ s.pc + 4) : (transfer b target s).pc = target.setWidth 32 ↔ p := by
  rw [transfer_eq_setPc, setPc_pc, ← hb]
  cases b with
  | true => simp [targetPc]
  | false => simpa using hother.symm

/-- The code of a comparison tells its three outcomes apart and is never CODE_NE, since the codes are distinct
(R36, R37). -/
theorem compareCode_iff {c : Config} (hc : c.wf) (a b : Nat) :
    compareCode c.codes a b ≠ c.codes.ne ∧ (compareCode c.codes a b = c.codes.eq ↔ a = b) ∧
      (compareCode c.codes a b = c.codes.lt ↔ a < b) ∧ (compareCode c.codes a b = c.codes.gt ↔ b < a) := by
  obtain ⟨-, ⟨hdistinct, -⟩, -⟩ := hc
  simp only [List.nodup_cons, List.mem_cons, List.not_mem_nil, or_false, not_or] at hdistinct
  obtain ⟨⟨heqne, heqlt, heqgt⟩, ⟨hnelt, hnegt⟩, hltgt, -⟩ := hdistinct
  obtain ⟨hab, h⟩ | ⟨hab, h⟩ | ⟨hab, h⟩ := compareCode_cases c.codes a b <;> rw [h] <;>
    refine ⟨?_, ?_, ?_, ?_⟩ <;> omega

/-- Settles O41: the flag register holds the code, and each jump reads from it its own outcome. -/
theorem branchesAfterCompare : Obligations.BranchesAfterCompare := by
  intro s t rs1 rs2 target hinv _ h hother
  obtain ⟨u, hu, hwrote⟩ := cmp_completes rs1 rs2 hinv
  obtain rfl : u = t := Host.Outcome.next.inj (hu.symm.trans h)
  obtain ⟨hflag, -, -, -, ⟨-, hcfg, -⟩, -, -⟩ := hwrote
  have hflagReg : ¬ (s.cfg.r0Hardwired = true ∧ flagReg = 0) := fun ⟨_, hzero⟩ => absurd hzero (by decide)
  rw [if_neg hflagReg] at hflag
  obtain ⟨hne, heq, hlt, hgt⟩ := compareCode_iff hinv.cfgWf (readReg s rs1) (readReg s rs2)
  rw [← hflag] at hne heq hlt hgt
  have hequal := (flagEqual_iff u).trans (hcfg ▸ heq)
  have hless := (flagLess_iff u).trans (hcfg ▸ hlt)
  have hgreater := (flagGreater_iff u).trans (hcfg ▸ hgt)
  have hnotEqual : flagNotEqual u = true ↔ readReg s rs1 ≠ readReg s rs2 :=
    (flagNotEqual_iff u).trans (not_congr (hcfg ▸ heq))
  refine ⟨hne, _, _, _, _, rfl, rfl, rfl, rfl, transfer_pc_eq_target_iff hequal hother,
    transfer_pc_eq_target_iff hless hother, transfer_pc_eq_target_iff hgreater hother, ?_⟩
  rw [transfer_pc_eq_target_iff hnotEqual hother, ne_eq, ne_eq, transfer_pc_eq_target_iff hequal hother]

end Sys2Proof.Proofs
end

section
/-! PROOFS of the statements about words in an image: a placed word (R114), the lines and labels of an assembled source
(R121 to R123) and the words that the assembler emits (R135). -/

namespace Sys2Proof.Proofs

open Sys2Proof Sys2Proof.Machine Sys2Proof.Safety Sys2Proof.Laws

/-! ### Words in an image -/

/-- The word that stands behind some bytes of the image is fetched at their number (R65, R110). -/
theorem imageWord_append (before after : List Byte) (w : InstrWord) :
    imageWord (before ++ w.bytes ++ after) before.length = w := by
  simp [imageWord, InstrWord.bytes]

/-- The part of the image before a placed word ends where the word begins. -/
theorem placeWord_before_length (img : List Byte) (a : Nat) :
    ((img ++ List.replicate (a - img.length) 0).take a).length = a := by
  simp only [List.length_take, List.length_append, List.length_replicate]
  omega

/-- The word placed at an address is the one fetched there. -/
theorem imageWord_placeWord (img : List Byte) (a : Nat) (w : InstrWord) : imageWord (placeWord img a w) a = w := by
  have hword := imageWord_append ((img ++ List.replicate (a - img.length) 0).take a) (img.drop (a + 4)) w
  rwa [placeWord_before_length] at hword

/-- An image holds the word placed in it. -/
theorem le_placeWord_length (img : List Byte) (a : Nat) (w : InstrWord) : a + 4 ≤ (placeWord img a w).length := by
  rw [placeWord, List.length_append, List.length_append, placeWord_before_length]
  simp [InstrWord.bytes]

/-- The pc of a machine with a placed word is the slot's address, which fits the pc (R40). -/
theorem withFetchWord_pc_toNat (s : State) (nbits w : Nat) : (s.withFetchWord nbits w).pc.toNat = slotAddr s := by
  have hslot : slotAddr s < 2 ^ 32 := (Nat.div_mul_le_self _ 4).trans_lt s.pc.isLt
  exact (BitVec.toNat_ofNat _ _).trans (Nat.mod_eq_of_lt hslot)

/-- A machine with a placed word can fetch it (R110). -/
theorem canFetch_withFetchWord (s : State) (nbits w : Nat) : CanFetch (s.withFetchWord nbits w) := by
  refine ⟨rfl, ?_, ?_⟩ <;> rw [withFetchWord_pc_toNat]
  · exact Nat.mul_mod_left _ 4
  · exact le_placeWord_length s.image (slotAddr s) (tableWord nbits w)

/-- The word that a machine with a placed word fetches. -/
theorem imageWord_withFetchWord (s : State) (nbits w : Nat) :
    imageWord (s.withFetchWord nbits w).image (s.withFetchWord nbits w).pc.toNat = tableWord nbits w := by
  rw [withFetchWord_pc_toNat]
  exact imageWord_placeWord s.image (slotAddr s) (tableWord nbits w)

/-- A table word is the decoder's word under the reference parameters (R8). -/
theorem decodeTableWord_eq_some_iff {nbits w : Nat} {i : Instr} :
    decodeTableWord nbits w = some i ↔ decode referenceConfig (tableWord nbits w) = .ok i := by
  unfold decodeTableWord
  cases decode referenceConfig (tableWord nbits w) <;> simp

/-- Settles O56: the placed word is the one fetched, and it decodes as the table's word does. -/
theorem placedWordRuns : Obligations.PlacedWordRuns := by
  intro s w i hcfg hdecode
  refine stepRunsTheDecodedInstruction _ i (canFetch_withFetchWord s 32 w) ?_
  rw [imageWord_withFetchWord]
  exact hcfg ▸ decodeTableWord_eq_some_iff.mp hdecode

/-! ### The words of an assembled image -/

/-- Words stand 4 bytes each (R65). -/
theorem length_flatMap_bytes (words : List InstrWord) : (words.flatMap InstrWord.bytes).length = 4 * words.length := by
  induction words with
  | nil => rfl
  | cons w words ih =>
    rw [List.flatMap_cons, List.length_append, ih, List.length_cons]
    simp only [InstrWord.bytes, List.length_cons, List.length_nil]
    omega

/-- Word number k of an image of words stands at 4 times k (R121). -/
theorem imageWord_flatMap_bytes {words : List InstrWord} {k : Nat} {w : InstrWord} (h : words[k]? = some w) :
    imageWord (words.flatMap InstrWord.bytes) (4 * k) = w := by
  obtain ⟨hk, rfl⟩ := List.getElem?_eq_some_iff.mp h
  have hsplit : words.take k ++ words[k] :: words.drop (k + 1) = words := by simp
  have hflat : (words.take k).flatMap InstrWord.bytes ++ words[k].bytes ++
      (words.drop (k + 1)).flatMap InstrWord.bytes = words.flatMap InstrWord.bytes := by
    conv_rhs => rw [← hsplit, List.flatMap_append, List.flatMap_cons]
    exact List.append_assoc _ _ _
  have hlen : ((words.take k).flatMap InstrWord.bytes).length = 4 * k := by
    rw [length_flatMap_bytes, List.length_take, Nat.min_eq_left hk.le]
  have hword := imageWord_append ((words.take k).flatMap InstrWord.bytes)
    ((words.drop (k + 1)).flatMap InstrWord.bytes) words[k]
  rwa [hlen, hflat] at hword

/-- Pass 2 gives each line its word, in order (R121, R123). -/
theorem assembleLines_ok {c : Config} {tab : SymbolTable} {k : Nat} {ls : List Text} {words : List InstrWord}
    (h : assembleLines c tab k ls = .ok words) :
    List.Forall₂ (fun l w => ∃ n, assembleLine c tab n l = .ok w) ls words := by
  induction ls generalizing k words with
  | nil =>
    obtain rfl : [] = words := Except.ok.inj h
    exact .nil
  | cons l ls ih =>
    unfold assembleLines at h
    split at h
    · cases h
    · next w hw =>
      split at h
      · cases h
      · next ws hws =>
        obtain rfl : w :: ws = words := Except.ok.inj h
        exact .cons ⟨_, hw⟩ (ih hws)

/-- A source that assembles has passed both passes (R122, R132). -/
theorem assemble_ok {c : Config} {source : Text} {image : List Byte} {tab : SymbolTable}
    (h : assemble c source = .ok (image, tab)) :
    collectLabels 0 (splitLines source) [] = .ok tab ∧
      ∃ words, assembleLines c tab 0 (splitLines source) = .ok words ∧ image = words.flatMap InstrWord.bytes := by
  unfold assemble at h
  split at h
  · cases h
  · next tab' htab =>
    split at h
    · cases h
    · next words hwords =>
      obtain ⟨rfl, rfl⟩ := Prod.mk.inj (Except.ok.inj h)
      exact ⟨htab, words, hwords, rfl⟩

/-- An assembled image has 4 bytes for each line, and at 4 times a line's index the word of that line (R121). -/
theorem assemble_words {c : Config} {source : Text} {image : List Byte} {tab : SymbolTable}
    (h : assemble c source = .ok (image, tab)) :
    image.length = 4 * (splitLines source).length ∧
      ∀ (k : Nat) (l : Text), (splitLines source)[k]? = some l →
        ∃ n, assembleLine c tab n l = .ok (imageWord image (4 * k)) := by
  obtain ⟨-, words, hwords, rfl⟩ := assemble_ok h
  obtain ⟨hlength, hget⟩ := List.forall₂_iff_get.mp (assembleLines_ok hwords)
  refine ⟨by rw [length_flatMap_bytes, hlength], fun k l hl => ?_⟩
  obtain ⟨hk, rfl⟩ := List.getElem?_eq_some_iff.mp hl
  rw [imageWord_flatMap_bytes (List.getElem?_eq_getElem (hlength ▸ hk))]
  exact hget k hk (hlength ▸ hk)

/-- A line that is empty or declares a label is the padding word (R123). -/
theorem assembleLine_padding {c : Config} {tab : SymbolTable} {n : Nat} {l : Text} {w : InstrWord}
    (hform : lineForm l = .empty ∨ ∃ name, lineForm l = .label name) (h : assembleLine c tab n l = .ok w) :
    w = paddingWord c := by
  obtain hempty | ⟨name, hlabel⟩ := hform
  · simpa [assembleLine, hempty, eq_comm] using h
  · simpa [assembleLine, hlabel, eq_comm] using h

/-- Settles O57: the words stand in line order, and such a line's word is the padding word. -/
theorem assembledLinesArePlaced : Obligations.AssembledLinesArePlaced := by
  intro c source image tab h
  obtain ⟨hlength, hwords⟩ := assemble_words h
  refine ⟨hlength, fun k l hl hform => ?_⟩
  obtain ⟨n, hline⟩ := hwords k l hl
  exact assembleLine_padding hform hline

/-! ### Labels -/

/-- A name has no address in a table that does not hold it. -/
theorem lookupLabel_eq_none_iff {tab : SymbolTable} {name : Text} :
    lookupLabel tab name = none ↔ name ∉ tab.map Prod.fst := by
  induction tab with
  | nil => simp [lookupLabel]
  | cons p tab ih =>
    unfold lookupLabel
    split
    · next hname => simp [hname]
    · next hname => simp [hname, ih]

/-- What pass 1 does with a line (R122): a label line enters a name that is new at its own address, and any other line
enters nothing. -/
theorem collectLabels_cons_ok {k : Nat} {l : Text} {ls : List Text} {tab tab' : SymbolTable}
    (h : collectLabels k (l :: ls) tab = .ok tab') :
    ((∀ name, lineForm l ≠ .label name) ∧ collectLabels (k + 1) ls tab = .ok tab') ∨
      ∃ name, lineForm l = .label name ∧ name ∉ tab.map Prod.fst ∧
        collectLabels (k + 1) ls (tab ++ [(name, k * 4)]) = .ok tab' := by
  unfold collectLabels at h
  split at h
  · next hform => exact .inl ⟨by simp [hform], h⟩
  · next hform => exact .inl ⟨by simp [hform], h⟩
  · next name hform =>
    split at h
    · cases h
    · split at h
      · cases h
      · next hnew => exact .inr ⟨name, hform, lookupLabel_eq_none_iff.mp (by simpa using hnew), h⟩

/-- Pass 1 keeps the names of the table distinct (R122). -/
theorem collectLabels_nodup {k : Nat} {ls : List Text} {tab tab' : SymbolTable}
    (h : collectLabels k ls tab = .ok tab') (htab : (tab.map Prod.fst).Nodup) : (tab'.map Prod.fst).Nodup := by
  induction ls generalizing k tab with
  | nil =>
    obtain rfl : tab = tab' := Except.ok.inj h
    exact htab
  | cons l ls ih =>
    obtain ⟨-, hrest⟩ | ⟨name, -, hnew, hrest⟩ := collectLabels_cons_ok h
    · exact ih hrest htab
    · exact ih hrest (by simpa using htab.concat hnew)

/-- Some line of a list that begins at line `k` declares the name, and its address is `a` (R122). -/
def DeclaresAt (k : Nat) (ls : List Text) (name : Text) (a : Nat) : Prop :=
  ∃ (j : Nat) (l : Text), ls[j]? = some l ∧ lineForm l = .label name ∧ a = (k + j) * 4

/-- No line declares nothing. -/
theorem not_declaresAt_nil (k : Nat) (name : Text) (a : Nat) : ¬ DeclaresAt k [] name a := by
  simp [DeclaresAt]

/-- The first line declares the name at its own address, or a later line declares it. -/
theorem declaresAt_cons {k : Nat} {l : Text} {ls : List Text} {name : Text} {a : Nat} :
    DeclaresAt k (l :: ls) name a ↔ (lineForm l = .label name ∧ a = k * 4) ∨ DeclaresAt (k + 1) ls name a := by
  constructor
  · rintro ⟨j, l', hl', hform, rfl⟩
    cases j with
    | zero =>
      obtain rfl : l = l' := by simpa using hl'
      exact .inl ⟨hform, rfl⟩
    | succ j => exact .inr ⟨j, l', by simpa using hl', hform, by omega⟩
  · rintro (⟨hform, rfl⟩ | ⟨j, l', hl', hform, rfl⟩)
    · exact ⟨0, l, rfl, hform, rfl⟩
    · exact ⟨j + 1, l', by simpa using hl', hform, by omega⟩

/-- Pass 1 adds to the table exactly what the lines declare (R122). -/
theorem mem_collectLabels_iff {k : Nat} {ls : List Text} {tab tab' : SymbolTable}
    (h : collectLabels k ls tab = .ok tab') (name : Text) (a : Nat) :
    (name, a) ∈ tab' ↔ (name, a) ∈ tab ∨ DeclaresAt k ls name a := by
  induction ls generalizing k tab with
  | nil =>
    obtain rfl : tab = tab' := Except.ok.inj h
    simp [not_declaresAt_nil]
  | cons l ls ih =>
    rw [declaresAt_cons]
    obtain ⟨hnoLabel, hrest⟩ | ⟨first, hform, -, hrest⟩ := collectLabels_cons_ok h
    · simp [ih hrest, hnoLabel]
    · simp [ih hrest, hform, eq_comm, or_assoc]

/-- Settles O58: pass 1 starts from the empty table at line 0. -/
theorem labelsAreLineAddresses : Obligations.LabelsAreLineAddresses := by
  intro c source image tab h
  obtain ⟨htab, -⟩ := assemble_ok h
  refine ⟨collectLabels_nodup htab List.nodup_nil, fun name a => ?_⟩
  simpa [DeclaresAt] using mem_collectLabels_iff htab name a

/-! ### The emitted words -/

/-- A sequence of operand parses that succeeds has parsed its first operand. -/
theorem bind_eq_ok {ε α β : Type} {x : Except ε α} {f : α → Except ε β} {b : β} (h : x >>= f = .ok b) :
    ∃ a, x = .ok a ∧ f a = .ok b := by
  cases x with
  | error e => cases h
  | ok a => exact ⟨a, rfl, h⟩

/-- The words `zero` and `comp` name r0 and r1, which the rich revision has (R126). -/
theorem isReg_of_registerAlias {c : Config} {t : Text} {r : RegIx} (h : registerAlias c t = some r) :
    c.isReg r = true := by
  unfold registerAlias at h
  split at h
  · cases h
  · next hrich =>
    have hregs : c.numRegs = 16 := by simp [Config.numRegs, hrich]
    split at h
    · obtain rfl := Option.some.inj h
      simp [Config.isReg, hregs]
    · split at h
      · obtain rfl := Option.some.inj h
        simp [Config.isReg, hregs]
      · cases h

/-- A register operand that parses names a register (R126). -/
theorem isReg_of_parseReg {c : Config} {t : Text} {r : RegIx} (h : parseReg c t = .ok r) : c.isReg r = true := by
  have hfew : c.numRegs ≤ 16 := by unfold Config.numRegs; split <;> decide
  unfold parseReg at h
  split at h
  · next v hv =>
    split at h
    · next hlt =>
      obtain rfl : BitVec.ofNat 8 v = r := Except.ok.inj h
      have hsame : (BitVec.ofNat 8 v).toNat = v := by
        rw [BitVec.toNat_ofNat]
        exact Nat.mod_eq_of_lt (by omega)
      simpa [Config.isReg, hsame] using hlt
    · cases h
  · split at h
    · next q hq =>
      obtain rfl : q = r := Except.ok.inj h
      exact isReg_of_registerAlias hq
    · cases h

/-- The word emitted for a mnemonic has its opcode and breaks no rule of its shape (R130). -/
theorem emitWord_ok {c : Config} {tab : SymbolTable} {m : Mnemonic} {ops : List Text} {w : InstrWord}
    (h : emitWord c tab m ops = .ok w) : c.opcodes.opOf m = w.b0 ∧ malformed c m.shape w = false := by
  unfold emitWord at h
  split at h
  · next hshape =>
    obtain ⟨rs1, h1, h⟩ := bind_eq_ok h
    obtain ⟨rs2, h2, h⟩ := bind_eq_ok h
    obtain ⟨rd, h3, h⟩ := bind_eq_ok h
    obtain rfl := Except.ok.inj h
    simp [hshape, malformed, isReg_of_parseReg h1, isReg_of_parseReg h2, isReg_of_parseReg h3]
  · next hshape =>
    obtain ⟨imm, -, h⟩ := bind_eq_ok h
    obtain ⟨rs2, h2, h⟩ := bind_eq_ok h
    obtain ⟨rd, h3, h⟩ := bind_eq_ok h
    obtain rfl := Except.ok.inj h
    simp [hshape, malformed, isReg_of_parseReg h2, isReg_of_parseReg h3]
  · next hshape =>
    obtain ⟨r, h1, h⟩ := bind_eq_ok h
    obtain ⟨a, -, h⟩ := bind_eq_ok h
    obtain rfl := Except.ok.inj h
    simp [hshape, malformed, raWord, isReg_of_parseReg h1]
  · next hshape =>
    obtain ⟨rs1, h1, h⟩ := bind_eq_ok h
    obtain ⟨rs2, h2, h⟩ := bind_eq_ok h
    obtain rfl := Except.ok.inj h
    simp [hshape, malformed, isReg_of_parseReg h1, isReg_of_parseReg h2]
  · next hshape =>
    obtain ⟨target, -, h⟩ := bind_eq_ok h
    obtain rfl := Except.ok.inj h
    simp [hshape, malformed, jumpWord]
  · next hshape =>
    obtain rfl := Except.ok.inj h
    simp [hshape, malformed, nullaryWord]
  · cases h

/-- A mnemonic that a token spells is one of the revision (R124). -/
theorem has_of_findMnemonic {c : Config} {t : Text} {m : Mnemonic} (h : findMnemonic c t = some m) :
    c.has m = true := by
  have hfound := List.find?_some h
  simp only [Bool.and_eq_true] at hfound
  exact hfound.left

/-- What the word of a line is (R123, R130): the padding word or a word emitted for a mnemonic of the revision. -/
theorem assembleLine_ok_cases {c : Config} {tab : SymbolTable} {n : Nat} {l : Text} {w : InstrWord}
    (h : assembleLine c tab n l = .ok w) :
    w = paddingWord c ∨ ∃ m ops, c.has m = true ∧ emitWord c tab m ops = .ok w := by
  unfold assembleLine at h
  split at h
  · exact .inl (Except.ok.inj h).symm
  · exact .inl (Except.ok.inj h).symm
  · split at h
    · exact .inl (Except.ok.inj h).symm
    · next ops _ =>
      split at h
      · cases h
      · next m hm =>
        split at h
        · split at h
          · next w' hw' =>
            obtain rfl : w' = w := Except.ok.inj h
            exact .inr ⟨m, ops, has_of_findMnemonic hm, hw'⟩
          · cases h
        · cases h

/-- Settles O59: the padding word is the word of `noop`, and an emitted word is formed as its mnemonic's shape asks. -/
theorem assembledWordsDecode : Obligations.AssembledWordsDecode := by
  intro c source image tab hc h k hk
  obtain ⟨-, hwords⟩ := assemble_words h
  obtain ⟨n, hline⟩ := hwords k _ (List.getElem?_eq_getElem hk)
  have hdecode : ∃ i, decode c (imageWord image (4 * k)) = .ok i := by
    obtain hpadding | ⟨m, ops, hhas, hemit⟩ := assembleLine_ok_cases hline
    · exact ⟨.noop, hpadding ▸ decodeOfEncode c .noop hc rfl⟩
    · obtain ⟨hopcode, hformed⟩ := emitWord_ok hemit
      exact ⟨m.build _, by rw [decode_of_opcode hc hhas hopcode, if_neg (by simp [hformed])]⟩
  obtain ⟨i, hi⟩ := hdecode
  obtain ⟨-, hwf⟩ := encodeOfDecode c _ i hi
  exact ⟨i, hi, hwf⟩

end Sys2Proof.Proofs
end

section
/-! PROOFS of the statement about disassembly (R136): the printed text of an instruction splits into its tokens again,
and each token parses to the operand it was printed from. -/

namespace Sys2Proof.Proofs

open Sys2Proof Sys2Proof.Machine Sys2Proof.Safety Sys2Proof.Laws

/-! ### Characters and tokens -/

/-- A character of a printed token: no white space, no line end, and none of the signs that begin a comment or a
label. -/
abbrev IsPlain (ch : Char) : Prop := isBlank ch = false ∧ ch ≠ '\n' ∧ ch ≠ ';' ∧ ch ≠ '.'

/-- A printed token: one or more plain characters. -/
def IsToken (t : Text) : Prop := t ≠ [] ∧ ∀ ch ∈ t, IsPlain ch

/-- The digits of a number are digit characters of values below the base. -/
theorem mem_toDigits {base n : Nat} {ch : Char} (hbase : 1 < base) (h : ch ∈ Nat.toDigits base n) :
    ∃ d < base, ch = Nat.digitChar d := by
  induction n using Nat.strongRecOn with
  | ind n ih =>
    rw [Nat.toDigits_eq_if hbase] at h
    split at h
    · next hlt => exact ⟨n, hlt, List.mem_singleton.mp h⟩
    · next hge =>
      obtain hhigh | hlow := List.mem_append.mp h
      · exact ih (n / base) (Nat.div_lt_self (by omega) hbase) hhigh
      · exact ⟨n % base, Nat.mod_lt n (by omega), List.mem_singleton.mp hlow⟩

/-- A decimal or hexadecimal digit is a plain character. -/
theorem isPlain_digitChar : ∀ d < 16, IsPlain (Nat.digitChar d) := by
  decide

/-- A number printed in a base up to 16 is a token. -/
theorem isToken_toDigits {base : Nat} (n : Nat) (hbase : 1 < base) (hfew : base ≤ 16) :
    IsToken (Nat.toDigits base n) := by
  refine ⟨Nat.toDigits_ne_nil, fun ch hch => ?_⟩
  obtain ⟨d, hd, rfl⟩ := mem_toDigits hbase hch
  exact isPlain_digitChar d (hd.trans_le hfew)

/-- A mnemonic's spelling is a token. -/
theorem isToken_mnemonicText (m : Mnemonic) : IsToken (mnemonicText m) := by
  have hchars : mnemonicText m ≠ [] ∧ (mnemonicText m).all (fun ch => decide (IsPlain ch)) = true := by
    cases m <;> decide
  simpa [IsToken] using hchars

/-! ### Numerals -/

/-- A numeral followed by one more digit. -/
theorem numeralFrom_append_digit {digit : Char → Option Nat} {base acc v d : Nat} {t : Text} {ch : Char}
    (ht : numeralFrom digit base acc t = some v) (hd : digit ch = some d) :
    numeralFrom digit base acc (t ++ [ch]) = some (base * v + d) := by
  induction t generalizing acc with
  | nil =>
    obtain rfl : acc = v := Option.some.inj ht
    simp [numeralFrom, hd]
  | cons x t ih =>
    unfold numeralFrom at ht
    rw [List.cons_append]
    unfold numeralFrom
    cases hx : digit x with
    | none => simp [hx] at ht
    | some e =>
      rw [hx] at ht
      exact ih ht

/-- A number's digits read back as the number, in any base whose digits are read as their values. -/
theorem numeralFrom_toDigits {digit : Char → Option Nat} {base : Nat} (hbase : 1 < base)
    (hdigit : ∀ d < base, digit (Nat.digitChar d) = some d) (n : Nat) :
    numeralFrom digit base 0 (Nat.toDigits base n) = some n := by
  induction n using Nat.strongRecOn with
  | ind n ih =>
    rw [Nat.toDigits_eq_if hbase]
    split
    · next hlt => simp [numeralFrom, hdigit n hlt]
    · next hge =>
      have hhigh := ih (n / base) (Nat.div_lt_self (by omega) hbase)
      rw [numeralFrom_append_digit hhigh (hdigit (n % base) (Nat.mod_lt n (by omega))), Nat.div_add_mod]

/-- A number printed in decimal parses (R126). -/
theorem parseDec_decText (n : Nat) : parseDec (decText n) = some n := by
  unfold parseDec decText
  rw [if_neg Nat.toDigits_ne_nil]
  exact numeralFrom_toDigits (by decide) (by decide) n

/-- A number printed in hexadecimal has no `0x` before it. -/
theorem dropHexPrefix_hexText (n : Nat) : dropHexPrefix (hexText n) = hexText n := by
  have hnoX : ∀ d < 16, Nat.digitChar d ≠ 'x' ∧ Nat.digitChar d ≠ 'X' := by decide
  have hdigit : ∀ ch ∈ hexText n, ch ≠ 'x' ∧ ch ≠ 'X' := fun ch hch => by
    obtain ⟨d, hd, rfl⟩ := mem_toDigits (by decide) hch
    exact hnoX d hd
  unfold dropHexPrefix
  split
  · next a b cs h =>
    obtain ⟨hx, hX⟩ := hdigit b (by simp [h])
    rw [if_neg (by simp [hx, hX]), h]
  · rfl

/-- A number printed in hexadecimal parses (R128). -/
theorem parseHex_hexText (n : Nat) : parseHex (hexText n) = some n := by
  unfold parseHex
  rw [dropHexPrefix_hexText, hexText, if_neg Nat.toDigits_ne_nil]
  exact numeralFrom_toDigits (by decide) (by decide) n

/-! ### Operands -/

/-- A register's index parses to it where it names a register (R126). -/
theorem parseReg_decText {c : Config} {r : RegIx} (h : c.isReg r = true) : parseReg c (decText r.toNat) = .ok r := by
  have hlt : r.toNat < c.numRegs := by simpa [Config.isReg] using h
  simp [parseReg, parseDec_decText, hlt]

/-- An immediate's value parses to it (R127). -/
theorem parseImm_decText (b : Byte) : parseImm (decText b.toNat) = .ok b := by
  have hle : b.toNat ≤ 255 := Nat.le_of_lt_succ b.isLt
  simp [parseImm, parseDec_decText, hle]

/-- A data address parses to it (R128). -/
theorem parseAddr_hexText (a : CellAddr) : parseAddr (hexText a.toNat) = .ok a := by
  have hle : a.toNat ≤ 65535 := Nat.le_of_lt_succ a.isLt
  simp [parseAddr, parseHex_hexText, hle]

/-- A jump target's value parses to it, as a literal before any label is looked up (R129). -/
theorem parseTarget_decText (tab : SymbolTable) (t : Target) : parseTarget tab (decText t.toNat) = .ok t := by
  have hle : t.toNat ≤ 16777215 := Nat.le_of_lt_succ t.isLt
  simp [parseTarget, parseDec_decText, hle]

/-- The operand tokens that an instruction prints (R130, R136). -/
def operandTexts : Instr → List Text
  | .noop | .halt | .ret => []
  | .add rs1 rs2 rd | .sub rs1 rs2 rd | .and rs1 rs2 rd | .or rs1 rs2 rd | .xor rs1 rs2 rd =>
    [decText rs1.toNat, decText rs2.toNat, decText rd.toNat]
  | .addi imm rs2 rd | .subi imm rs2 rd | .andi imm rs2 rd | .ori imm rs2 rd | .xori imm rs2 rd =>
    [decText imm.toNat, decText rs2.toNat, decText rd.toNat]
  | .store r a | .load r a => [decText r.toNat, hexText a.toNat]
  | .cmp rs1 rs2 => [decText rs1.toNat, decText rs2.toNat]
  | .jmp t | .jeq t | .jne t | .jlt t | .jgt t | .jal t => [decText t.toNat]

/-- The printed line is the mnemonic with those tokens. -/
theorem printInstr_eq (i : Instr) : printInstr i = printLine i.mnemonic (operandTexts i) := by
  cases i <;> rfl

/-- There are as many as the shape asks for (R125). -/
theorem operandTexts_length (i : Instr) : (operandTexts i).length + 1 = tokenCount i.mnemonic.shape := by
  cases i <;> rfl

/-- Each of them is a token. -/
theorem isToken_of_mem_operandTexts {i : Instr} {t : Text} (h : t ∈ operandTexts i) : IsToken t := by
  have hdec (n : Nat) : IsToken (decText n) := isToken_toDigits n (by decide) (by decide)
  have hhex (n : Nat) : IsToken (hexText n) := isToken_toDigits n (by decide) (by decide)
  have hall : ∀ t ∈ operandTexts i, IsToken t := by cases i <;> simp [operandTexts, hdec, hhex]
  exact hall t h

/-- The operands of a well-formed instruction parse back, and the word emitted for them is the instruction's (R130). -/
theorem emitWord_operandTexts {c : Config} {i : Instr} (tab : SymbolTable) (hwf : i.wf c = true) :
    emitWord c tab i.mnemonic (operandTexts i) = .ok (encode c i) := by
  cases i with
  | noop | halt | ret => rfl
  | add rs1 rs2 rd | sub rs1 rs2 rd | and rs1 rs2 rd | or rs1 rs2 rd | xor rs1 rs2 rd =>
    simp only [Instr.wf, Bool.and_eq_true] at hwf
    obtain ⟨⟨h1, h2⟩, h3⟩ := hwf
    simp only [emitWord, operandTexts, Instr.mnemonic, Mnemonic.shape, parseReg_decText h1, parseReg_decText h2,
      parseReg_decText h3]
    rfl
  | addi imm rs2 rd | subi imm rs2 rd | andi imm rs2 rd | ori imm rs2 rd | xori imm rs2 rd =>
    simp only [Instr.wf, Bool.and_eq_true] at hwf
    obtain ⟨h2, h3⟩ := hwf
    simp only [emitWord, operandTexts, Instr.mnemonic, Mnemonic.shape, parseImm_decText, parseReg_decText h2,
      parseReg_decText h3]
    rfl
  | store r a | load r a =>
    simp only [emitWord, operandTexts, Instr.mnemonic, Mnemonic.shape, parseReg_decText hwf, parseAddr_hexText]
    rfl
  | cmp rs1 rs2 =>
    simp only [Instr.wf, Bool.and_eq_true] at hwf
    obtain ⟨h1, h2⟩ := hwf
    simp only [emitWord, operandTexts, Instr.mnemonic, Mnemonic.shape, parseReg_decText h1, parseReg_decText h2]
    rfl
  | jmp t | jeq t | jne t | jlt t | jgt t | jal t =>
    simp only [emitWord, operandTexts, Instr.mnemonic, Mnemonic.shape, parseTarget_decText]
    rfl

/-! ### The mnemonic -/

/-- The spellings are distinct (R101). -/
theorem mnemonicText_injective {m n : Mnemonic} (h : mnemonicText m = mnemonicText n) : m = n :=
  List.inj_on_of_nodup_map (f := mnemonicText) (l := Mnemonic.all) (by decide) (mem_all m) (mem_all n) h

/-- The spellings are in lower case (R101). -/
theorem lower_mnemonicText (m : Mnemonic) : lower (mnemonicText m) = mnemonicText m := by
  cases m <;> decide

/-- A mnemonic of the revision is found under its spelling (R124). -/
theorem findMnemonic_mnemonicText {c : Config} {m : Mnemonic} (hhas : c.has m = true) :
    findMnemonic c (mnemonicText m) = some m := by
  cases h : findMnemonic c (mnemonicText m) with
  | some n =>
    have hfound := List.find?_some h
    simp only [lower_mnemonicText, Bool.and_eq_true, beq_iff_eq] at hfound
    exact congrArg some (mnemonicText_injective hfound.right)
  | none =>
    have hmissed := List.find?_eq_none.mp h m (mem_all m)
    simp [hhas, lower_mnemonicText] at hmissed

/-! ### The line and its tokens -/

/-- A text without a line end is one line (R120). -/
theorem splitLines_of_no_newline {t : Text} (h : '\n' ∉ t) : splitLines t = [t] := by
  induction t with
  | nil => rfl
  | cons ch t ih =>
    obtain ⟨hch, ht⟩ := not_or.mp (mt List.mem_cons.mpr h)
    simp [splitLines, ih ht, Ne.symm hch]

/-- A text that begins and ends without white space is trimmed already (R120). -/
theorem trim_of_ends {t l : Text} {a b : Char} {l' : Text} (hfirst : t = a :: l) (hlast : t = l' ++ [b])
    (ha : isBlank a = false) (hb : isBlank b = false) : trim t = t := by
  have hfront : t.dropWhile isBlank = t := by rw [hfirst, List.dropWhile_cons_of_neg (by simp [ha])]
  have hback : t.reverse.dropWhile isBlank = t.reverse := by
    rw [hlast, List.reverse_append, List.reverse_singleton, List.singleton_append,
      List.dropWhile_cons_of_neg (by simp [hb])]
  rw [trim, hfront, hback, List.reverse_reverse]

/-- The characters up to the next white space belong to the token that has begun (R124). -/
theorem tokensFrom_append {t : Text} (ht : ∀ ch ∈ t, isBlank ch = false) (acc rest : Text) :
    tokensFrom acc (t ++ rest) = tokensFrom (t.reverse ++ acc) rest := by
  induction t generalizing acc with
  | nil => rfl
  | cons ch t ih =>
    rw [List.forall_mem_cons] at ht
    obtain ⟨hch, ht⟩ := ht
    simp [tokensFrom, hch, ih ht]

/-- Tokens that stand behind a token that has begun, one space before each, are split apart again (R124). -/
theorem tokensFrom_operands {acc : Text} (hacc : acc ≠ []) {ops : List Text} (hops : ∀ t ∈ ops, IsToken t) :
    tokensFrom acc (ops.flatMap fun t => ' ' :: t) = acc.reverse :: ops := by
  induction ops generalizing acc with
  | nil => simp [tokensFrom, flushToken, hacc]
  | cons t ops ih =>
    rw [List.forall_mem_cons] at hops
    obtain ⟨⟨hnonempty, hplain⟩, hops⟩ := hops
    have hblank : isBlank ' ' = true := by decide
    rw [List.flatMap_cons, List.cons_append]
    simp only [tokensFrom, hblank, if_true]
    rw [tokensFrom_append fun ch hch => (hplain ch hch).left, List.append_nil,
      ih (List.reverse_ne_nil_iff.mpr hnonempty) hops]
    simp [flushToken, hacc]

section PrintedLine

variable {m : Mnemonic} {ops : List Text} (hops : ∀ t ∈ ops, IsToken t)

include hops

/-- A printed line splits into the tokens it was printed from. -/
theorem tokens_printLine : tokens (printLine m ops) = mnemonicText m :: ops := by
  obtain ⟨hnonempty, hplain⟩ := isToken_mnemonicText m
  rw [tokens, printLine, tokensFrom_append fun ch hch => (hplain ch hch).left, List.append_nil,
    tokensFrom_operands (List.reverse_ne_nil_iff.mpr hnonempty) hops, List.reverse_reverse]

/-- A character of a printed line is a space or belongs to a token. -/
theorem mem_printLine {ch : Char} (h : ch ∈ printLine m ops) : ch = ' ' ∨ IsPlain ch := by
  obtain hmnemonic | hoperand := List.mem_append.mp h
  · obtain ⟨-, hplain⟩ := isToken_mnemonicText m
    exact .inr (hplain ch hmnemonic)
  · obtain ⟨t, ht, hch⟩ := List.mem_flatMap.mp hoperand
    obtain ⟨-, hplain⟩ := hops t ht
    exact (List.mem_cons.mp hch).imp id (hplain ch)

omit hops in
/-- A printed line begins with a plain character, its mnemonic's first. -/
theorem printLine_first : ∃ a l, printLine m ops = a :: l ∧ IsPlain a := by
  obtain ⟨hnonempty, hplain⟩ := isToken_mnemonicText m
  obtain ⟨a, l, hal⟩ := List.exists_cons_of_ne_nil hnonempty
  exact ⟨a, _, by rw [printLine, hal, List.cons_append], hplain a (by simp [hal])⟩

/-- A printed line ends with a plain character, its last token's last. -/
theorem printLine_last : ∃ l b, printLine m ops = l ++ [b] ∧ IsPlain b := by
  have htoken {t : Text} (ht : IsToken t) : ∃ l b, t = l ++ [b] ∧ IsPlain b := by
    obtain ⟨hnonempty, hplain⟩ := ht
    obtain hnil | ⟨l, b, rfl⟩ := List.eq_nil_or_concat' t
    · exact absurd hnil hnonempty
    · exact ⟨l, b, rfl, hplain b (by simp)⟩
  obtain rfl | ⟨init, t, rfl⟩ := List.eq_nil_or_concat' ops
  · obtain ⟨l, b, hl, hb⟩ := htoken (isToken_mnemonicText m)
    exact ⟨l, b, by simpa [printLine] using hl, hb⟩
  · obtain ⟨l, b, rfl, hb⟩ := htoken (hops t (by simp))
    exact ⟨mnemonicText m ++ (init.flatMap fun t => ' ' :: t) ++ ' ' :: l, b, by simp [printLine], hb⟩

/-- A printed line is one line. -/
theorem splitLines_printLine : splitLines (printLine m ops) = [printLine m ops] := by
  refine splitLines_of_no_newline fun h => ?_
  obtain hspace | ⟨-, hnewline, -, -⟩ := mem_printLine hops h
  · exact absurd hspace (by decide)
  · exact hnewline rfl

/-- A printed line has no comment and nothing to trim, and it is no label line (R120). -/
theorem lineForm_printLine : lineForm (printLine m ops) = .instruction (printLine m ops) := by
  have hcode : (printLine m ops).takeWhile (fun ch => ch != ';') = printLine m ops :=
    List.takeWhile_eq_self_iff.mpr fun ch hch => by
      obtain rfl | ⟨-, -, hcomment, -⟩ := mem_printLine hops hch
      · decide
      · simpa using hcomment
  obtain ⟨a, l, hfirst, hblank, -, -, hdot⟩ := printLine_first (m := m) (ops := ops)
  obtain ⟨l', b, hlast, hblank', -⟩ := printLine_last (m := m) hops
  have hstrip : stripLine (printLine m ops) = a :: l := by
    rw [stripLine, hcode, trim_of_ends hfirst hlast hblank hblank', hfirst]
  unfold lineForm
  rw [hstrip, hfirst]
  simp [hdot]

end PrintedLine

/-- The printed line of a well-formed instruction assembles to its word (R130, R136). -/
theorem assembleLine_printInstr {c : Config} {i : Instr} (tab : SymbolTable) (n : Nat) (hwf : i.wf c = true) :
    assembleLine c tab n (printInstr i) = .ok (encode c i) := by
  have hops : ∀ t ∈ operandTexts i, IsToken t := fun t => isToken_of_mem_operandTexts
  rw [printInstr_eq, assembleLine, lineForm_printLine hops]
  simp only [tokens_printLine hops, findMnemonic_mnemonicText (has_of_wf hwf), operandTexts_length, if_true,
    emitWord_operandTexts tab hwf]

/-- A text of one instruction line assembles to that line's word, with no label. -/
theorem assemble_of_instruction_line {c : Config} {t u : Text} {w : InstrWord} (hline : splitLines t = [t])
    (hform : lineForm t = .instruction u) (hword : assembleLine c [] 1 t = .ok w) :
    assemble c t = .ok (w.bytes, []) := by
  simp [assemble, hline, collectLabels, hform, assembleLines, hword]

/-- Settles O60: the word decodes to the instruction, whose printed text is one line that assembles to the word. -/
theorem disassemblyAssemblesBack : Obligations.DisassemblyAssemblesBack := by
  intro c i hc hwf
  have hops : ∀ t ∈ operandTexts i, IsToken t := fun t => isToken_of_mem_operandTexts
  refine ⟨printInstr i, by simp [disassemble, decodeOfEncode c i hc hwf], ?_⟩
  have hword := assembleLine_printInstr [] 1 hwf
  rw [printInstr_eq] at hword ⊢
  exact assemble_of_instruction_line (splitLines_printLine hops) (lineForm_printLine hops) hword

end Sys2Proof.Proofs
end
